-- ==== Sys2Proof/Word.lean ====
section
/-! DEFINITION. The widths of the machine's data: bytes of the instruction store and 32-bit stack entries and registers. -/

namespace Sys2Proof

/-- One byte of the instruction store (20_memory.md R33). -/
abbrev Byte := BitVec 8

/-- One stack entry or register: a 32-bit two's-complement value, read as signed by `BitVec.toInt` (00_scope.md R8). -/
abbrev Word := BitVec 32

end Sys2Proof
end

