-- ==== Sys2Proof/Machine/Alu.lean ====
section
/-! DEFINITION. The operations of alu_dispatch (43_arithmetic.md R75, R76): the exact integer result, then narrowed. -/

namespace Sys2Proof.Machine

/-- The low 32 bits of an exact integer; read as signed it is `wrap32 n` (00_scope.md R13). -/
def wrapWord (n : Int) : Word := BitVec.ofInt 32 n

/-- `wrap32(a + b)` (R78). -/
def addWord (a b : Word) : Word := wrapWord (a.toInt + b.toInt)

/-- `wrap32(a - b)` (R79). -/
def subWord (a b : Word) : Word := wrapWord (a.toInt - b.toInt)

/-- `wrap32(a * b)` (R80). -/
def mulWord (a b : Word) : Word := wrapWord (a.toInt * b.toInt)

/-- `wrap32(trunc_div(a, b))`, the quotient rounded toward zero (R76); used only where `b` is not 0. -/
def divWord (a b : Word) : Word := wrapWord (Int.tdiv a.toInt b.toInt)

end Sys2Proof.Machine
end

