-- ==== Sys2Proof/Machine/Memory.lean ====
section
/-! DEFINITION. Indexed storage as plain data: the instruction store, the stack memory and the register file are each a list of
(index, value) pairs in one canonical form. -/

namespace Sys2Proof.Machine

/-- Values by index. An index that is not listed reads 0, the reset contents the spec gives to all three storages
(10_state.md R31). -/
abbrev Cells (w : Nat) := List (Nat × BitVec w)

/-- The instruction store: a list of `Host.Cell` (20_memory.md R33). -/
abbrev Memory := Cells 8

/-- The value at an index. -/
def Cells.read {w : Nat} (c : Cells w) (a : Nat) : BitVec w :=
  match c with
  | [] => 0
  | (k, v) :: rest => if k = a then v else Cells.read rest a

/-- A new entry put before the first larger index. -/
def Cells.insert {w : Nat} (a : Nat) (v : BitVec w) (c : Cells w) : Cells w :=
  match c with
  | [] => [(a, v)]
  | (k, u) :: rest => if a < k then (a, v) :: (k, u) :: rest else (k, u) :: Cells.insert a v rest

/-- The entries of every other index. -/
def Cells.erase {w : Nat} (c : Cells w) (a : Nat) : Cells w :=
  c.filter (fun p => p.1 != a)

/-- Writing the value an unlisted index reads as removes the entry, so that equal contents are equal data. -/
def Cells.write {w : Nat} (c : Cells w) (a : Nat) (v : BitVec w) : Cells w :=
  if v = 0 then c.erase a else (c.erase a).insert a v

/-- The canonical form: indices strictly rising, no entry equal to what an unlisted index reads as. -/
abbrev Cells.wf {w : Nat} (c : Cells w) : Prop :=
  (c.map Prod.fst).Pairwise (· < ·) ∧ ∀ p ∈ c, p.2 ≠ 0

/-- Every listed index lies below a capacity. -/
abbrev Cells.below {w : Nat} (c : Cells w) (cap : Nat) : Prop :=
  ∀ p ∈ c, p.1 < cap

/-- The canonical form of the instruction store. -/
abbrev Memory.wf (m : Memory) : Prop := Cells.wf m

end Sys2Proof.Machine
end

