-- ==== Sys2Proof/Config.lean ====
section
/-! DEFINITION. What an implementation fixes: the three sizes and the opcode map (00_scope.md R5-R7, R10, R11). There is no free
value in this model: every value an instruction leaves is fixed by a rule of the spec. -/

namespace Sys2Proof

/-- The 14 operations of 30_encoding.md R49, in the order of its table. -/
inductive Opcode where
  | nop | push | pop | load | store | jmp | jz | jnz | add | sub | mul | div | print | stop
  deriving DecidableEq, Repr

/-- The closed set of operations (00_scope.md R1). -/
def Opcode.all : List Opcode :=
  [.nop, .push, .pop, .load, .store, .jmp, .jz, .jnz, .add, .sub, .mul, .div, .print, .stop]

/-- The parameter OPCODE_MAP: the byte that stands for each operation (00_scope.md R11, 92_eei_decisions.md D1).
The spec's own values are `OpcodeMap.standard` in Decode.lean. -/
structure OpcodeMap where
  nop : Byte
  push : Byte
  pop : Byte
  load : Byte
  store : Byte
  jmp : Byte
  jz : Byte
  jnz : Byte
  add : Byte
  sub : Byte
  mul : Byte
  div : Byte
  print : Byte
  stop : Byte
  deriving DecidableEq, Repr

/-- The byte of an operation under a map. -/
def OpcodeMap.byteOf (m : OpcodeMap) : Opcode → Byte
  | .nop => m.nop
  | .push => m.push
  | .pop => m.pop
  | .load => m.load
  | .store => m.store
  | .jmp => m.jmp
  | .jz => m.jz
  | .jnz => m.jnz
  | .add => m.add
  | .sub => m.sub
  | .mul => m.mul
  | .div => m.div
  | .print => m.print
  | .stop => m.stop

/-- A map the spec allows: NOP stays 0x00 and the 14 values are distinct (00_scope.md R11). -/
abbrev OpcodeMap.wf (m : OpcodeMap) : Prop :=
  m.nop = 0 ∧ (Opcode.all.map m.byteOf).Nodup

/-- The named parameters of the block. DESIGN CHOICE (log entries 1 and 2, safe): they stand in the state as data that no step
changes, so that a claim speaks of every size and every map at once. -/
structure Config where
  /-- PROG_CAP, the capacity of the instruction store in bytes (R5). -/
  progCap : Nat
  /-- STACK_CAP, the capacity of the stack in entries (R6). -/
  stackCap : Nat
  /-- REG_COUNT, the number of registers (R7). -/
  regCount : Nat
  /-- OPCODE_MAP (R11). -/
  opcodes : OpcodeMap
  deriving DecidableEq, Repr

/-- Parameters the spec allows (00_scope.md R10, R11). -/
abbrev Config.wf (c : Config) : Prop :=
  1 ≤ c.progCap ∧ 1 ≤ c.stackCap ∧ 1 ≤ c.regCount ∧ c.opcodes.wf

end Sys2Proof
end

