-- ==== Sys2Proof/Syntax.lean ====
section
/-! DEFINITION. The instructions: one constructor per row of spec/opcode_table.json, with the signed operand of
30_encoding.md R47 as an integer. -/

namespace Sys2Proof

/-- The 14 instructions (30_encoding.md R49). An operand is the signed integer the decoder assembles (R47); which integers the
operand's bytes can hold is `Instr.wf` in WellFormed.lean. -/
inductive Instr where
  /-- NOP (R65). -/
  | nop
  /-- PUSH v: the 4-byte signed value (R66). -/
  | push (v : Int)
  /-- POP (R67). -/
  | pop
  /-- LOAD r: the 1-byte signed register index (R68). -/
  | load (r : Int)
  /-- STORE r: the 1-byte signed register index (R69). -/
  | store (r : Int)
  /-- JMP t: the 2-byte signed absolute target (R71). -/
  | jmp (t : Int)
  /-- JZ t (R72). -/
  | jz (t : Int)
  /-- JNZ t (R73). -/
  | jnz (t : Int)
  /-- ADD (R78). -/
  | add
  /-- SUB (R79). -/
  | sub
  /-- MUL (R80). -/
  | mul
  /-- DIV (R81). -/
  | div
  /-- PRINT (R82). -/
  | print
  /-- STOP (R83). -/
  | stop
  deriving DecidableEq, Repr

end Sys2Proof
end

