-- ==== Sys2Proof/WellFormed.lean ====
section
/-! DEFINITION. Which instructions have an encoding: the operand must fit its field (30_encoding.md R47, R60). -/

namespace Sys2Proof

/-- `v` is a two's-complement signed integer of `8 * w` bits (30_encoding.md R47); `w` is 1, 2 or 4. -/
def fitsSigned (w : Nat) (v : Int) : Bool :=
  decide (-(2 ^ (8 * w - 1) : Int) ≤ v) && decide (v < (2 ^ (8 * w - 1) : Int))

/-- The operand lies in its field's range (R60). Whether a register index or a target is usable is not asked here: that is
checked when the instruction executes (R52). -/
def Instr.wf : Instr → Bool
  | .nop => true
  | .push v => fitsSigned 4 v
  | .pop => true
  | .load r => fitsSigned 1 r
  | .store r => fitsSigned 1 r
  | .jmp t => fitsSigned 2 t
  | .jz t => fitsSigned 2 t
  | .jnz t => fitsSigned 2 t
  | .add => true
  | .sub => true
  | .mul => true
  | .div => true
  | .print => true
  | .stop => true

end Sys2Proof
end

