-- ==== Sys2Proof/Decode.lean ====
section
/-! DEFINITION. The instruction_decoder (30_encoding.md R46-R54, R64): from bytes to an instruction, total, rejecting by name;
and after it the encoder written from the same table. -/

namespace Sys2Proof

/-! ### The opcode map and the operand widths -/

/-- The default OPCODE_MAP: the bytes of 30_encoding.md R49. -/
def OpcodeMap.standard : OpcodeMap where
  nop := 0x00
  push := 0x01
  pop := 0x02
  load := 0x03
  store := 0x04
  jmp := 0x05
  jz := 0x06
  jnz := 0x07
  add := 0x08
  sub := 0x09
  mul := 0x0A
  div := 0x0B
  print := 0x0C
  stop := 0x0D

/-- The operation a byte stands for, if any (R49, R51). -/
def OpcodeMap.opcode? (m : OpcodeMap) (b : Byte) : Option Opcode :=
  Opcode.all.find? (fun op => m.byteOf op == b)

/-- The operand width in bytes, fixed by the opcode (00_scope.md R9, 30_encoding.md R46). -/
def Opcode.width : Opcode → Nat
  | .nop => 0
  | .push => 4
  | .pop => 0
  | .load => 1
  | .store => 1
  | .jmp => 2
  | .jz => 2
  | .jnz => 2
  | .add => 0
  | .sub => 0
  | .mul => 0
  | .div => 0
  | .print => 0
  | .stop => 0

/-- Instruction length in bytes: the opcode byte and its operand (R50). -/
def Opcode.length (op : Opcode) : Nat := 1 + op.width

/-- The longest instruction, PUSH, has five bytes (R46). -/
def maxInstrBytes : Nat := 5

/-! ### Byte order -/

/-- The unsigned value of bytes listed lowest address first: little-endian (20_memory.md R36). -/
def leNat : List Byte → Nat
  | [] => 0
  | b :: bs => b.toNat + 256 * leNat bs

/-- The same bytes as a two's-complement signed integer of `8 * length` bits (30_encoding.md R47). -/
def leInt (bs : List Byte) : Int := (BitVec.ofNat (8 * bs.length) (leNat bs)).toInt

/-- The `n` bytes of a signed integer, lowest first (R47, R60). -/
def leBytes : Nat → Int → List Byte
  | 0, _ => []
  | n + 1, v => BitVec.ofInt 8 v :: leBytes n (v / 256)

/-! ### Decoding -/

/-- The instruction of an operation with its assembled operand (R48); an operation of width 0 has none. -/
def Instr.ofOperand : Opcode → Int → Instr
  | .nop, _ => .nop
  | .push, v => .push v
  | .pop, _ => .pop
  | .load, r => .load r
  | .store, r => .store r
  | .jmp, t => .jmp t
  | .jz, t => .jz t
  | .jnz, t => .jnz t
  | .add, _ => .add
  | .sub, _ => .sub
  | .mul, _ => .mul
  | .div, _ => .div
  | .print, _ => .print
  | .stop, _ => .stop

/-- What the decoder finds at the head of a byte sequence (R64). -/
inductive Decoded where
  /-- One whole instruction and the bytes after it. -/
  | instr (i : Instr) (rest : List Byte)
  /-- There is no byte to read as an opcode; the fetch raises EndOfProgram (20_memory.md R40). -/
  | noOpcode
  /-- The byte is no opcode (R51); the fetch raises UnknownOpcode. -/
  | unknownOpcode (b : Byte)
  /-- The opcode is known and its operand runs past the last byte; the fetch raises EndOfProgram (R40). -/
  | truncated (op : Opcode)
  deriving DecidableEq, Repr

/-- One instruction from a byte sequence, lowest address first (R47, R49-R51, R55). The operand is looked at only after the
opcode is known, so an unknown opcode is reported before a truncated operand (60_exceptions.md R89). -/
def decode (m : OpcodeMap) : List Byte → Decoded
  | [] => .noOpcode
  | b :: rest =>
    match m.opcode? b with
    | none => .unknownOpcode b
    | some op =>
      if rest.length < op.width then .truncated op
      else .instr (.ofOperand op (leInt (rest.take op.width))) (rest.drop op.width)

/-! ### Encoding -/

/-- The operation of an instruction (R49). -/
def Instr.opcode : Instr → Opcode
  | .nop => .nop
  | .push _ => .push
  | .pop => .pop
  | .load _ => .load
  | .store _ => .store
  | .jmp _ => .jmp
  | .jz _ => .jz
  | .jnz _ => .jnz
  | .add => .add
  | .sub => .sub
  | .mul => .mul
  | .div => .div
  | .print => .print
  | .stop => .stop

/-- The operand of an instruction; 0 where it has none (its width is then 0 and no byte is written). -/
def Instr.operand : Instr → Int
  | .nop => 0
  | .push v => v
  | .pop => 0
  | .load r => r
  | .store r => r
  | .jmp t => t
  | .jz t => t
  | .jnz t => t
  | .add => 0
  | .sub => 0
  | .mul => 0
  | .div => 0
  | .print => 0
  | .stop => 0

/-- The bytes of an instruction: the opcode byte, then the operand, least-significant byte first (R46). -/
def encode (m : OpcodeMap) (i : Instr) : List Byte :=
  m.byteOf i.opcode :: leBytes i.opcode.width i.operand

/-! ### The opcode table's numbering of bits -/

/-- The bytes of an instruction whose bits are `w`, bit 0 the least significant bit of the first byte; bits at or above `nbits`
are 0, and the bytes go on to at least the longest instruction. -/
def tableBytes (nbits w : Nat) : List Byte :=
  leBytes (max maxInstrBytes ((nbits + 7) / 8)) (w % 2 ^ nbits : Nat)

/-- What the decoder reads from an instruction whose bits are `w`, under the default opcode map. -/
def decodeTableWord (nbits w : Nat) : Option Instr :=
  match decode OpcodeMap.standard (tableBytes nbits w) with
  | .instr i _ => some i
  | .noOpcode => none
  | .unknownOpcode _ => none
  | .truncated _ => none

end Sys2Proof
end

