-- ==== Sys2Proof/Machine/Params.lean ====
section
/-! DEFINITION. The default parameters of the block (00_scope.md R5-R7, 30_encoding.md R49). -/

namespace Sys2Proof

/-- PROG_CAP = 1024, STACK_CAP = 255, REG_COUNT = 16 and the opcode bytes of R49. -/
def Config.default : Config where
  progCap := 1024
  stackCap := 255
  regCount := 16
  opcodes := OpcodeMap.standard

end Sys2Proof
end

