-- ==== Sys2Proof/Machine/State.lean ====
section
/-! DEFINITION. The state of the block (10_state.md R15-R31), the reasons a step can stop, and the state after reset. -/

namespace Sys2Proof.Machine

/-- The run status, a state machine of pc_control (10_state.md R24). -/
inductive RunStatus where
  | running
  | halted
  | faulted
  deriving DecidableEq, Repr

/-- The seven fault kinds of 60_exceptions.md R84. Kind 0, None, is `none` in `Option FaultKind`. -/
inductive FaultKind where
  | stackOverflow
  | stackUnderflow
  | invalidRegister
  | invalidJumpTarget
  | unknownOpcode
  | divisionByZero
  | endOfProgram
  deriving DecidableEq, Repr

/-- The whole state. The first group is fixed for a run and is a parameter of it (R15, R28); the second is what steps change. -/
structure State where
  /-- The parameters PROG_CAP, STACK_CAP, REG_COUNT and OPCODE_MAP (log entries 1 and 2). -/
  cfg : Config
  /-- The instruction store IMem (20_memory.md R33, R34). -/
  imem : Memory
  /-- The program length L (R28). -/
  progLen : Nat
  /-- The instruction pointer ip, in 0..PROG_CAP (R16). -/
  ip : Nat
  /-- The stack memory S, dead entries included (R18, R20). -/
  stack : Cells 32
  /-- The stack pointer sp: the count of live entries, in 0..STACK_CAP (R19). -/
  sp : Nat
  /-- The register file x (R22). -/
  regs : Cells 32
  /-- The run status (R24). -/
  status : RunStatus
  /-- The fault latch's kind (R25). -/
  faultKind : Option FaultKind
  /-- The fault latch's address (R25). -/
  faultPc : Nat
  /-- The output stream, oldest value first (R26). -/
  out : List Word
  deriving DecidableEq, Repr

/-- Why there is no next state. No instruction's meaning answers one of these: a fault of the spec is a next state whose status
is Faulted (60_exceptions.md R86). All three are safe: the model stops exactly where the spec says the block has no step
(DESIGN CHOICE, log entry 3). -/
inductive Fault where
  /-- Raised by `step` alone: status is Halted, and the block has no step (30_encoding.md R57). Safe. -/
  | halted
  /-- Raised by `step` alone: status is Faulted, and the block has no step (R57). Safe. -/
  | faulted
  /-- Raised by `Block.on` alone, when a step is granted while reset is asserted: a run starts only when reset is released
  (70_reset_and_hazards.md R101). Safe. -/
  | inReset
  deriving DecidableEq, Repr

/-- What the model gives no meaning. -/
inductive Refusal where
  /-- An instruction without a meaning, rejected by name in `exec`. Raised by no arm: every instruction is modelled. Safe. -/
  | notModelled (mnemonic : String)
  /-- Raised by `Block.on` alone: the host drives load_addr at or above PROG_CAP, outside the port's stated range
  (70_reset_and_hazards.md R105). Safe (log entry 8). -/
  | loadAddrOutOfRange
  /-- Raised by `Block.on` alone: the host drives prog_len above PROG_CAP, against its duty of R107. Safe (log entry 8). -/
  | progLenOutOfRange
  deriving DecidableEq, Repr

/-- The outcome of a meaning or a step. -/
abbrev Result := Host.Outcome State Fault Refusal

/-- Every piece of state at its value of 10_state.md R31, for given parameters, before the host has loaded anything: the
instruction store all 0x00 (R102). DESIGN CHOICE (log entry 4, unsafe): L, which R31 leaves to the host, is 0, the length
of an empty program. -/
def State.initial (c : Config) : State where
  cfg := c
  imem := []
  progLen := 0
  ip := 0
  stack := []
  sp := 0
  regs := []
  status := .running
  faultKind := none
  faultPc := 0
  out := []

/-- The machine right after reset, with the default parameters (R31, 70_reset_and_hazards.md R101). -/
def State.reset : State := State.initial Config.default

end Sys2Proof.Machine
end

