-- ==== Sys2Proof/Machine/Ops.lean ====
section
/-! DEFINITION. The named operations over the storages: stack, registers, instruction store, instruction pointer, output, halt,
and taking a fault. There is no return from a fault and no handler (60_exceptions.md R88): the Faulted state is left only by
reset, which is the host's (HostPort.lean). -/

namespace Sys2Proof.Machine

/-! ### Reading -/

/-- Stack entry `S[i]` (10_state.md R18). -/
def State.entry (s : State) (i : Nat) : Word := s.stack.read i

/-- Register `x[r]` (R22). -/
def State.reg (s : State) (r : Nat) : Word := s.regs.read r

/-- The byte of the instruction store at an address; there is none at or past PROG_CAP (20_memory.md R33). -/
def State.imemByte? (s : State) (a : Nat) : Option Byte :=
  if a < s.cfg.progCap then some (s.imem.read a) else none

/-- Top of stack, `S[sp-1]` (R20). -/
def State.top (s : State) : Word := s.entry (s.sp - 1)

/-- Next on stack, `S[sp-2]` (43_arithmetic.md R74). -/
def State.nextTop (s : State) : Word := s.entry (s.sp - 2)

/-- `next`, the address just past an instruction of this opcode at `ip` (30_encoding.md R56). -/
def State.nextIp (s : State) (op : Opcode) : Nat := s.ip + op.length

/-! ### Writing -/

/-- `ip <- a`. -/
def State.goto (s : State) (a : Nat) : State := { s with ip := a }

/-- `S[sp] <- v; sp <- sp + 1` (R20). -/
def State.pushWord (s : State) (v : Word) : State :=
  { s with stack := s.stack.write s.sp v, sp := s.sp + 1 }

/-- `sp <- sp - 1`; the released entry keeps its value (R20). -/
def State.dropTop (s : State) : State := { s with sp := s.sp - 1 }

/-- `S[sp-2] <- v; sp <- sp - 1`: two operands replaced by a result (R74). -/
def State.replaceTopTwo (s : State) (v : Word) : State :=
  { s with stack := s.stack.write (s.sp - 2) v, sp := s.sp - 1 }

/-- `x[r] <- v`. No register is hardwired (R22). -/
def State.setReg (s : State) (r : Nat) (v : Word) : State :=
  { s with regs := s.regs.write r v }

/-- `Emit(v)`: append to the output stream (R26). -/
def State.emit (s : State) (v : Word) : State := { s with out := s.out ++ [v] }

/-- `status <- Halted` (44_output_and_halt.md R83). -/
def State.halt (s : State) : State := { s with status := .halted }

/-! ### Taking a fault -/

/-- `raise F` at the instruction whose opcode is at `ip`: status, kind and address are latched and nothing else is written
(60_exceptions.md R86). -/
def State.raise (s : State) (k : FaultKind) : State :=
  { s with status := .faulted, faultKind := some k, faultPc := s.ip }

/-! ### Checked stack access

All checks come before all writes, so a fault leaves no partial effect (00_scope.md R14, 60_exceptions.md R86). -/

/-- Push `v` and go on at `next`, or StackOverflow on a full stack (R66, R68). -/
def pushThen (v : Word) (next : Nat) (s : State) : Result :=
  if s.sp = s.cfg.stackCap then .next (s.raise .stackOverflow)
  else .next ((s.pushWord v).goto next)

/-- Go on with the top of stack, or StackUnderflow on an empty stack (R67, R69, R72, R73, R82). -/
def withTop (s : State) (k : Word → Result) : Result :=
  if s.sp = 0 then .next (s.raise .stackUnderflow) else k s.top

/-- Go on with the left operand `S[sp-2]` and the right operand `S[sp-1]`, or StackUnderflow on fewer than two (R74). -/
def withTopTwo (s : State) (k : Word → Word → Result) : Result :=
  if s.sp < 2 then .next (s.raise .stackUnderflow) else k s.nextTop s.top

end Sys2Proof.Machine
end

