-- ==== Sys2Proof/Machine/Arithmetic.lean ====
section
/-! DEFINITION. Arithmetic: ADD, SUB, MUL, DIV (43_arithmetic.md). -/

namespace Sys2Proof.Machine

/-- The binary-operation pattern (R74): `a` was pushed earlier, `b` later; the result replaces both. -/
def binaryOp (f : Word → Word → Word) (next : Nat) (s : State) : Result :=
  withTopTwo s fun a b => .next ((s.replaceTopTwo (f a b)).goto next)

/-- ADD (R78). -/
def execAdd (s : State) : Result := binaryOp addWord (s.nextIp .add) s

/-- SUB (R79). -/
def execSub (s : State) : Result := binaryOp subWord (s.nextIp .sub) s

/-- MUL (R80). -/
def execMul (s : State) : Result := binaryOp mulWord (s.nextIp .mul) s

/-- DIV (R81): the stack condition is checked before the divisor (60_exceptions.md R89). -/
def execDiv (s : State) : Result :=
  withTopTwo s fun a b =>
    if b = 0 then .next (s.raise .divisionByZero)
    else .next ((s.replaceTopTwo (divWord a b)).goto (s.nextIp .div))

end Sys2Proof.Machine
end

