-- ==== Sys2Proof/Machine/Flags.lean ====
section
/-! DEFINITION. The block has no flags, condition codes or predicates (10_state.md R27); the one condition it computes is the
zero test of a popped value. -/

namespace Sys2Proof.Machine

/-- The zero test of JZ and JNZ, on all 32 bits (10_state.md R27, 42_control_transfer.md R72). -/
def isZero (c : Word) : Bool := c == 0

end Sys2Proof.Machine
end

