-- ==== Sys2Proof/Machine/Operands.lean ====
section
/-! DEFINITION. The operand forms (30_encoding.md R48): an immediate value, a register index, an absolute jump target. Whether
an index or a target is usable is checked here, when the instruction executes (R52). -/

namespace Sys2Proof.Machine

/-- The 32-bit value of a PUSH immediate, bit for bit (40_stack_ops.md R66). -/
def immediate (v : Int) : Word := BitVec.ofInt 32 v

/-- A register index is valid when `0 ≤ r < REG_COUNT` (10_state.md R23). -/
def State.regIndex? (s : State) (r : Int) : Option Nat :=
  if 0 ≤ r ∧ r < s.cfg.regCount then some r.toNat else none

/-- A jump target is valid when `0 ≤ t < L` (42_control_transfer.md R70). -/
def State.jumpTarget? (s : State) (t : Int) : Option Nat :=
  if 0 ≤ t ∧ t < s.progLen then some t.toNat else none

/-- Go on with a valid register index, or InvalidRegister (R68, R69). -/
def withRegister (r : Int) (s : State) (k : Nat → Result) : Result :=
  match s.regIndex? r with
  | none => .next (s.raise .invalidRegister)
  | some i => k i

/-- Go on with a valid jump target, or InvalidJumpTarget (R70). -/
def withTarget (t : Int) (s : State) (k : Nat → Result) : Result :=
  match s.jumpTarget? t with
  | none => .next (s.raise .invalidJumpTarget)
  | some a => k a

end Sys2Proof.Machine
end

