-- ==== Sys2Proof/Machine/ControlTransfer.lean ====
section
/-! DEFINITION. Control transfer: JMP, JZ, JNZ (42_control_transfer.md). Targets are absolute; there is no delay slot
(70_reset_and_hazards.md R109). -/

namespace Sys2Proof.Machine

/-- Pop the condition value; jump where the test holds of it, else go on at `next`. The target is checked only if the jump is
taken, and a bad target takes back the pop (R72, R73, 60_exceptions.md R86). -/
def popBranch (taken : Word → Bool) (t : Int) (next : Nat) (s : State) : Result :=
  withTop s fun c =>
    if taken c then withTarget t s fun a => .next (s.dropTop.goto a)
    else .next (s.dropTop.goto next)

/-- JMP t (R71). -/
def execJmp (t : Int) (s : State) : Result := withTarget t s fun a => .next (s.goto a)

/-- JZ t (R72). -/
def execJz (t : Int) (s : State) : Result := popBranch isZero t (s.nextIp .jz) s

/-- JNZ t (R73). -/
def execJnz (t : Int) (s : State) : Result := popBranch (fun c => !isZero c) t (s.nextIp .jnz) s

end Sys2Proof.Machine
end

