-- ==== Sys2Proof/Machine/OutputHalt.lean ====
section
/-! DEFINITION. Output and halt: PRINT, STOP (44_output_and_halt.md). -/

namespace Sys2Proof.Machine

/-- PRINT (R82). -/
def execPrint (s : State) : Result :=
  withTop s fun v => .next (((s.emit v).dropTop).goto (s.nextIp .print))

/-- STOP (R83): the opcode byte is consumed, so `ip` ends just past it. -/
def execStop (s : State) : Result := .next ((s.goto (s.nextIp .stop)).halt)

end Sys2Proof.Machine
end

