-- ==== Sys2Proof/Machine/RegisterOps.lean ====
section
/-! DEFINITION. Register operations: LOAD, STORE (41_register_ops.md). The index is checked before the stack
(60_exceptions.md R89). -/

namespace Sys2Proof.Machine

/-- LOAD r (R68). -/
def execLoad (r : Int) (s : State) : Result :=
  withRegister r s fun i => pushThen (s.reg i) (s.nextIp .load) s

/-- STORE r (R69). -/
def execStore (r : Int) (s : State) : Result :=
  withRegister r s fun i =>
    withTop s fun v => .next (((s.setReg i v).dropTop).goto (s.nextIp .store))

end Sys2Proof.Machine
end

