-- ==== Sys2Proof/Machine/StackOps.lean ====
section
/-! DEFINITION. Stack operations: NOP, PUSH, POP (40_stack_ops.md). -/

namespace Sys2Proof.Machine

/-- NOP (R65). -/
def execNop (s : State) : Result := .next (s.goto (s.nextIp .nop))

/-- PUSH v (R66). -/
def execPush (v : Int) (s : State) : Result := pushThen (immediate v) (s.nextIp .push) s

/-- POP (R67). -/
def execPop (s : State) : Result :=
  withTop s fun _ => .next (s.dropTop.goto (s.nextIp .pop))

end Sys2Proof.Machine
end

