-- ==== Sys2Proof/Machine/Fetch.lean ====
section
/-! DEFINITION. The common fetch and decode of 30_encoding.md R55, and the placing of an instruction's bytes in the store. -/

namespace Sys2Proof.Machine

/-- At most `n` bytes from an address up, as many as exist (20_memory.md R33, R36). Reading has no side effect (R41). -/
def State.fetchBytes (s : State) : Nat → Nat → List Byte
  | 0, _ => []
  | n + 1, a =>
    match s.imemByte? a with
    | none => []
    | some b => b :: s.fetchBytes n (a + 1)

/-- The bytes the decoder is given: from `ip`, up to the longest instruction, none at or past PROG_CAP. -/
def State.window (s : State) : List Byte := s.fetchBytes maxInstrBytes s.ip

/-- The instruction at `ip`, or the fault its fetch raises, in the order of 60_exceptions.md R89: EndOfProgram for the opcode,
UnknownOpcode, EndOfProgram for the operand (30_encoding.md R55, 20_memory.md R40). -/
def fetch (s : State) : Except FaultKind Instr :=
  match decode s.cfg.opcodes s.window with
  | .instr i _ => .ok i
  | .noOpcode => .error .endOfProgram
  | .unknownOpcode _ => .error .unknownOpcode
  | .truncated _ => .error .endOfProgram

/-- Write consecutive bytes from an address up; a byte at or past PROG_CAP does not exist and is dropped
(70_reset_and_hazards.md R103). -/
def State.placeBytes (s : State) : Nat → List Byte → State
  | _, [] => s
  | a, b :: bs =>
    if a < s.cfg.progCap then
      ({ s with imem := s.imem.write a b }).placeBytes (a + 1) bs
    else s

/-- Bytes placed at `ip` as a loader would leave them: the program length reaches at least their end, and never past PROG_CAP
(10_state.md R28). -/
def State.loadAtIp (s : State) (bytes : List Byte) : State :=
  { s.placeBytes s.ip bytes with
    progLen := max s.progLen (min s.cfg.progCap (s.ip + bytes.length)) }

end Sys2Proof.Machine
end

