-- ==== Sys2Proof/Machine/Step.lean ====
section
/-! DEFINITION. One step of the block (30_encoding.md R55, R57). -/

namespace Sys2Proof.Machine

/-- One whole instruction, or the fault its fetch raises; no step once the run has ended. -/
def step (s : State) : Host.Outcome State Fault Refusal :=
  match s.status with
  | .running =>
    match fetch s with
    | .ok i => exec i s
    | .error k => .next (s.raise k)
  | .halted => .fault .halted
  | .faulted => .fault .faulted

/-- The instruction whose bits are `w` loaded where `step` fetches next, and the program length that its loading gives
(log entry 5). -/
def State.withFetchWord (s : State) (nbits w : Nat) : State :=
  s.loadAtIp (tableBytes nbits w)

end Sys2Proof.Machine
end

