-- ==== Sys2Proof/Machine/Assembler.lean ====
section
/-! DEFINITION. The spec's assembler text, labels and disassembly (30_encoding.md R59-R63). Text is a list of characters.
Lexical details the rules leave open are DESIGN CHOICE (log entry 12). -/

namespace Sys2Proof.Machine

/-! ### Mnemonics and numbers -/

/-- The 14 mnemonics, in upper case (R59). -/
def mnemonic : Opcode → List Char
  | .nop => ['N', 'O', 'P']
  | .push => ['P', 'U', 'S', 'H']
  | .pop => ['P', 'O', 'P']
  | .load => ['L', 'O', 'A', 'D']
  | .store => ['S', 'T', 'O', 'R', 'E']
  | .jmp => ['J', 'M', 'P']
  | .jz => ['J', 'Z']
  | .jnz => ['J', 'N', 'Z']
  | .add => ['A', 'D', 'D']
  | .sub => ['S', 'U', 'B']
  | .mul => ['M', 'U', 'L']
  | .div => ['D', 'I', 'V']
  | .print => ['P', 'R', 'I', 'N', 'T']
  | .stop => ['S', 'T', 'O', 'P']

/-- The operation a word names. -/
def mnemonicOp? (w : List Char) : Option Opcode := Opcode.all.find? (fun op => mnemonic op == w)

/-- The value of a digit; `0..9`, then `a..f` or `A..F`. -/
def digit? (c : Char) : Option Nat :=
  let n := c.toNat
  if 48 ≤ n ∧ n ≤ 57 then some (n - 48)
  else if 97 ≤ n ∧ n ≤ 102 then some (n - 87)
  else if 65 ≤ n ∧ n ≤ 70 then some (n - 55)
  else none

/-- Digits after the ones already read. -/
def digitsFrom (base acc : Nat) : List Char → Option Nat
  | [] => some acc
  | c :: cs =>
    match digit? c with
    | none => none
    | some d => if d < base then digitsFrom base (acc * base + d) cs else none

/-- An unsigned number: decimal, or hexadecimal after `0x` (R60). -/
def parseNat? : List Char → Option Nat
  | [] => none
  | ['0', 'x'] => none
  | '0' :: 'x' :: ds => digitsFrom 16 0 ds
  | ds => digitsFrom 10 0 ds

/-- A signed number (R60). -/
def parseInt? : List Char → Option Int
  | '-' :: ds => (parseNat? ds).map (fun n : Nat => -(n : Int))
  | ds => (parseNat? ds).map (fun n : Nat => (n : Int))

/-! ### Text to items -/

/-- An operand as written: a signed integer or a label (R60). -/
inductive AsmOperand where
  | num (n : Int)
  | label (name : List Char)
  deriving DecidableEq, Repr

/-- One piece of a program: a label before an instruction (R61), or an instruction as written. -/
inductive AsmItem where
  | label (name : List Char)
  | op (o : Opcode) (arg : Option AsmOperand)
  deriving DecidableEq, Repr

/-- The pieces of a text between the characters that satisfy `p`. -/
def splitAt (p : Char → Bool) : List Char → List (List Char)
  | [] => [[]]
  | c :: cs =>
    match splitAt p cs with
    | [] => [[]]
    | w :: ws => if p c then [] :: w :: ws else (c :: w) :: ws

/-- The words of a line, its comment dropped (R59). -/
def lineWords (l : List Char) : List (List Char) :=
  (splitAt (fun c => c == ' ' || c == '\t' || c == '\r') (l.takeWhile (fun c => c != ';'))).filter
    (fun w => !w.isEmpty)

/-- A label's name: not empty, no colon, and not to be taken for a number. -/
def labelName? (w : List Char) : Option (List Char) :=
  match w with
  | [] => none
  | c :: _ => if c == '-' || (48 ≤ c.toNat && c.toNat ≤ 57) || w.contains ':' then none else some w

/-- The operand of an operation (R60): a signed integer, or a label for the three jumps. -/
def operandOf? (o : Opcode) (w : List Char) : Option AsmOperand :=
  match parseInt? w with
  | some n => some (.num n)
  | none =>
    match o with
    | .jmp | .jz | .jnz => (labelName? w).map .label
    | .nop | .push | .pop | .load | .store | .add | .sub | .mul | .div | .print | .stop => none

/-- The items of a line's words, or none on an assembly error. -/
def itemsOf? : List (List Char) → Option (List AsmItem)
  | [] => some []
  | w :: ws =>
    if w.getLast? = some ':' then
      match labelName? w.dropLast, itemsOf? ws with
      | some n, some is => some (.label n :: is)
      | _, _ => none
    else
      match mnemonicOp? w with
      | none => none
      | some o =>
        if o.width = 0 then (itemsOf? ws).map (fun is => .op o none :: is)
        else
          match ws with
          | [] => none
          | a :: rest =>
            match operandOf? o a, itemsOf? rest with
            | some x, some is => some (.op o (some x) :: is)
            | _, _ => none

/-- The items of a whole text, line after line. -/
def parseLines? : List (List Char) → Option (List AsmItem)
  | [] => some []
  | l :: ls =>
    match itemsOf? (lineWords l), parseLines? ls with
    | some a, some b => some (a ++ b)
    | _, _ => none

/-- The items of a text (R59). -/
def parseText? (text : List Char) : Option (List AsmItem) := parseLines? (splitAt (fun c => c == '\n') text)

/-! ### Items to bytes -/

/-- The address of each label, counted from `a`, each instruction taking its length (R61). -/
def labelsFrom : Nat → List AsmItem → List (List Char × Nat)
  | _, [] => []
  | a, .label n :: is => (n, a) :: labelsFrom a is
  | a, .op o _ :: is => labelsFrom (a + o.length) is

/-- The integer an operand assembles to (R60, R61). -/
def operandValue? (labels : List (List Char × Nat)) : AsmOperand → Option Int
  | .num n => some n
  | .label name => (labels.lookup name).map (fun a : Nat => (a : Int))

/-- One item's instruction; an operand that does not fit its field is an assembly error, one that fits but cannot be used is not
(R60). A label has none. -/
def instrOf? (labels : List (List Char × Nat)) (o : Opcode) (arg : Option AsmOperand) : Option Instr :=
  match arg with
  | none => if o.width = 0 then some (Instr.ofOperand o 0) else none
  | some x =>
    if o.width = 0 then none
    else
      match operandValue? labels x with
      | none => none
      | some v => if (Instr.ofOperand o v).wf then some (Instr.ofOperand o v) else none

/-- The instructions of the items, one for each mnemonic (R62). -/
def instrsOf? (labels : List (List Char × Nat)) : List AsmItem → Option (List Instr)
  | [] => some []
  | .label _ :: is => instrsOf? labels is
  | .op o arg :: is =>
    match instrOf? labels o arg, instrsOf? labels is with
    | some i, some rest => some (i :: rest)
    | _, _ => none

/-- The last item is not a label: a label stands before an instruction (R61). -/
def endsInInstr : List AsmItem → Bool
  | [] => true
  | [.label _] => false
  | [.op _ _] => true
  | _ :: is => endsInInstr is

/-- The instructions of a program; a label defined twice, or before no instruction, is an assembly error. -/
def resolve? (items : List AsmItem) : Option (List Instr) :=
  if ((labelsFrom 0 items).map Prod.fst).Nodup ∧ endsInInstr items then
    instrsOf? (labelsFrom 0 items) items
  else none

/-- The bytes of instructions laid one after another. -/
def encodeAll (m : OpcodeMap) (is : List Instr) : List Byte := is.flatMap (encode m)

/-- The bytes of a program's text, or none on an assembly error. -/
def assemble? (m : OpcodeMap) (text : List Char) : Option (List Byte) :=
  match parseText? text with
  | none => none
  | some items => (resolve? items).map (encodeAll m)

/-! ### Disassembly -/

/-- A signed decimal. -/
def showInt (v : Int) : List Char :=
  if v < 0 then '-' :: Nat.toDigits 10 v.natAbs else Nat.toDigits 10 v.natAbs

/-- The mnemonic, and for an instruction with an operand one space and its signed decimal value (R63). -/
def showInstr (i : Instr) : List Char :=
  if i.opcode.width = 0 then mnemonic i.opcode else mnemonic i.opcode ++ ' ' :: showInt i.operand

/-- An upper-case hexadecimal digit. -/
def hexDigit (n : Nat) : Char := if n < 10 then Char.ofNat (48 + n) else Char.ofNat (55 + n)

/-- An illegal byte (R63). -/
def showByte (b : Byte) : List Char :=
  ['.', 'b', 'y', 't', 'e', ' ', '0', 'x', hexDigit (b.toNat / 16), hexDigit (b.toNat % 16)]

/-- The disassembly at the head of a byte sequence (R63); a sequence without a whole instruction has none. -/
def disassemble? (m : OpcodeMap) (bytes : List Byte) : Option (List Char) :=
  match decode m bytes with
  | .instr i _ => some (showInstr i)
  | .unknownOpcode b => some (showByte b)
  | .noOpcode => none
  | .truncated _ => none

end Sys2Proof.Machine
end

