-- ==== Sys2Proof/Machine/HostPort.lean ====
section
/-! DEFINITION. The host interface (70_reset_and_hazards.md R101-R107): reset, program load, granted steps, and the output
ports. The host's actions are events, since the spec gives no clock and no handshake (R105, 92_eei_decisions.md D17). -/

namespace Sys2Proof.Machine

/-! ### Output ports (R105) -/

/-- The number of bits of an unsigned value in `0..n`: `ceil(log2(n + 1))`. -/
def bitsFor (n : Nat) : Nat := if n = 0 then 0 else Nat.log2 n + 1

/-- The width of `ip`, `fault_pc` and `prog_len` (10_state.md R16). -/
def Config.ipWidth (c : Config) : Nat := bitsFor c.progCap

/-- The width of `sp` (R19). -/
def Config.spWidth (c : Config) : Nat := bitsFor c.stackCap

/-- The width of `load_addr`: `ceil(log2 PROG_CAP)`. -/
def Config.loadAddrWidth (c : Config) : Nat := bitsFor (c.progCap - 1)

/-- The 2-bit code of the run status; 3 is never produced (R24). -/
def RunStatus.code : RunStatus → BitVec 2
  | .running => 0
  | .halted => 1
  | .faulted => 2

/-- The 3-bit code of a fault kind (60_exceptions.md R84). -/
def FaultKind.code : FaultKind → BitVec 3
  | .stackOverflow => 1
  | .stackUnderflow => 2
  | .invalidRegister => 3
  | .invalidJumpTarget => 4
  | .unknownOpcode => 5
  | .divisionByZero => 6
  | .endOfProgram => 7

/-- Port `status`. -/
def State.statusPort (s : State) : BitVec 2 := s.status.code

/-- Port `fault_kind`; 0 is None (R84). -/
def State.faultKindPort (s : State) : BitVec 3 :=
  match s.faultKind with
  | none => 0
  | some k => k.code

/-- Port `fault_pc`, as wide as `ip`. -/
def State.faultPcPort (s : State) : BitVec (Config.ipWidth s.cfg) := BitVec.ofNat _ s.faultPc

/-- What a step from `before` to `after` shows at `out_data`, if `out_valid` is 1: the value the step emitted. -/
def outData? (before after : State) : Option Word := (after.out.drop before.out.length).head?

/-- Port `out_valid`: 1 for the step of each PRINT that does not fault. -/
def outValid (before after : State) : Bool := (outData? before after).isSome

/-- The result of a run (60_exceptions.md R92). -/
inductive RunResult where
  | halted
  | faulted (k : FaultKind)
  deriving DecidableEq, Repr

/-- The run result as a function of `status` and `fault_kind`; none while Running (R92). -/
def State.runResult (s : State) : Option RunResult :=
  match s.status with
  | .running => none
  | .halted => some .halted
  | .faulted => s.faultKind.map .faulted

/-! ### Reset and load (R101-R104) -/

/-- The block with the level of its reset input. -/
structure Block where
  /-- The level of port `rst`. -/
  rst : Bool
  /-- The state of 10_state.md. -/
  core : State
  deriving DecidableEq, Repr

/-- What the host can do (R107). It has no other way to change the block's state. -/
inductive HostEvent where
  /-- `rst` goes to 1 (R102). -/
  | assertReset
  /-- `load_we` is strobed with `load_addr` and `load_data` (R103). -/
  | loadByte (addr : Nat) (data : Byte)
  /-- `prog_len` is driven and sampled (R105). -/
  | setProgLen (n : Nat)
  /-- `rst` goes to 0 (R101). -/
  | releaseReset
  /-- The host lets the block take one step (60_exceptions.md R100). -/
  | grantStep
  deriving DecidableEq, Repr

/-- One byte written to the instruction store. -/
def State.loadByte (s : State) (a : Nat) (b : Byte) : State := { s with imem := s.imem.write a b }

/-- `L` sampled. -/
def State.setProgLen (s : State) (n : Nat) : State := { s with progLen := n }

/-- One host event. Writes of the store and of `L` are honoured only while reset is asserted (R103, R107). A port value outside
its stated range is refused by name (log entry 8). -/
def Block.on (e : HostEvent) (b : Block) : Host.Outcome Block Fault Refusal :=
  match e with
  | .assertReset =>
    if b.rst then .next b else .next { rst := true, core := State.initial b.core.cfg }
  | .loadByte a d =>
    if b.rst then
      if a < b.core.cfg.progCap then .next { b with core := b.core.loadByte a d }
      else .refused .loadAddrOutOfRange
    else .next b
  | .setProgLen n =>
    if b.rst then
      if n ≤ b.core.cfg.progCap then .next { b with core := b.core.setProgLen n }
      else .refused .progLenOutOfRange
    else .next b
  | .releaseReset => .next { b with rst := false }
  | .grantStep =>
    if b.rst then .fault .inReset
    else
      match step b.core with
      | .next s => .next { b with core := s }
      | .fault r => .fault r
      | .refused r => .refused r

/-- Events one after another, stopping at the first fault or refusal. -/
def Block.onAll : List HostEvent → Block → Host.Outcome Block Fault Refusal
  | [], b => .next b
  | e :: es, b =>
    match b.on e with
    | .next b' => Block.onAll es b'
    | .fault r => .fault r
    | .refused r => .refused r

/-- The write strobes that copy bytes to consecutive addresses (R103). -/
def loadEvents : Nat → List Byte → List HostEvent
  | _, [] => []
  | a, d :: ds => .loadByte a d :: loadEvents (a + 1) ds

/-- The boot order of R104 for a byte source: assert reset, write the bytes that fit and the program length, release reset.
Bytes beyond PROG_CAP are dropped without a fault (R103). -/
def bootEvents (c : Config) (src : List Byte) : List HostEvent :=
  .assertReset :: (loadEvents 0 (src.take c.progCap) ++
    [.setProgLen (min src.length c.progCap), .releaseReset])

end Sys2Proof.Machine
end

