-- ==== Sys2Proof/Safety.lean ====
section
/-! DEFINITION. The terms claims are made in: the legal states, what a frame says, and a run without a fault. -/

namespace Sys2Proof.Machine

/-- The fault latch agrees with the status: nothing is latched while not Faulted, and a fault leaves `ip` at the address it
latches (10_state.md R25, 60_exceptions.md R86). -/
abbrev State.latchOk (s : State) : Prop :=
  (s.status ≠ .faulted → s.faultKind = none ∧ s.faultPc = 0) ∧
  (s.status = .faulted → s.faultKind.isSome ∧ s.faultPc = s.ip)

/-- The ranges of 10_state.md R16, R19, R28. -/
abbrev State.inRange (s : State) : Prop :=
  s.ip ≤ s.cfg.progCap ∧ s.sp ≤ s.cfg.stackCap ∧ s.progLen ≤ s.cfg.progCap

/-- The three storages are in canonical form and hold nothing past their capacities (R18, R22, 20_memory.md R33). -/
abbrev State.storesOk (s : State) : Prop :=
  (Memory.wf s.imem ∧ s.imem.below s.cfg.progCap) ∧
  (s.stack.wf ∧ s.stack.below s.cfg.stackCap) ∧
  (s.regs.wf ∧ s.regs.below s.cfg.regCount)

/-- A legal state: one the spec's ranges and forms allow. -/
abbrev State.wf (s : State) : Prop :=
  s.cfg.wf ∧ s.inRange ∧ s.storesOk ∧ s.latchOk

/-! ### Frames -/

/-- Every byte of the instruction store, its bounds and L are the same (R35, R28). -/
def SameProgram (s t : State) : Prop :=
  (∀ a, t.imemByte? a = s.imemByte? a) ∧ t.progLen = s.progLen ∧ t.cfg = s.cfg

/-- Every register is the same. -/
def SameRegs (s t : State) : Prop := ∀ r, t.reg r = s.reg r

/-- Every register but one is the same. -/
def SameRegsBut (k : Nat) (s t : State) : Prop := ∀ r, r ≠ k → t.reg r = s.reg r

/-- Every stack entry, live or dead, is the same. -/
def SameEntries (s t : State) : Prop := ∀ i, t.entry i = s.entry i

/-- Every stack entry but one is the same. -/
def SameEntriesBut (k : Nat) (s t : State) : Prop := ∀ i, i ≠ k → t.entry i = s.entry i

/-- The status and the fault latch are the same. -/
def SameControl (s t : State) : Prop :=
  t.status = s.status ∧ t.faultKind = s.faultKind ∧ t.faultPc = s.faultPc

/-- `t` is what fault `k` leaves of `s`: status, kind and address latched, and nothing else written (60_exceptions.md R86). -/
def FaultLeaves (k : FaultKind) (s t : State) : Prop :=
  t.status = .faulted ∧ t.faultKind = some k ∧ t.faultPc = s.ip ∧
  t.ip = s.ip ∧ t.sp = s.sp ∧ t.out = s.out ∧
  SameEntries s t ∧ SameRegs s t ∧ SameProgram s t

/-- The same state but for dead stack entries: every live entry and all else agree (10_state.md R20). -/
def SameButDead (s t : State) : Prop :=
  (∀ i, i < s.sp → t.entry i = s.entry i) ∧ t = { s with stack := t.stack }

/-! ### Which instruction raises which fault -/

/-- The faults of an instruction's own (60_exceptions.md R85); those of the common fetch are not among them. -/
def ownFaults : Instr → List FaultKind
  | .nop => []
  | .push _ => [.stackOverflow]
  | .pop => [.stackUnderflow]
  | .load _ => [.invalidRegister, .stackOverflow]
  | .store _ => [.invalidRegister, .stackUnderflow]
  | .jmp _ => [.invalidJumpTarget]
  | .jz _ => [.stackUnderflow, .invalidJumpTarget]
  | .jnz _ => [.stackUnderflow, .invalidJumpTarget]
  | .add => [.stackUnderflow]
  | .sub => [.stackUnderflow]
  | .mul => [.stackUnderflow]
  | .div => [.stackUnderflow, .divisionByZero]
  | .print => [.stackUnderflow]
  | .stop => []

/-! ### Safe runs -/

/-- No fault has been taken. -/
def State.safe (s : State) : Prop := s.status ≠ .faulted

/-- Every state of the first `n` steps is without a fault. -/
def SafeFor (n : Nat) (s : State) : Prop :=
  ∀ k, k ≤ n → ∀ t, Sys2Proof.core.run k s = .next t → State.safe t

end Sys2Proof.Machine
end

