-- ==== Sys2Proof/Certificates/Slice0/Obligations.lean ====
section
/-! DEFINITION. The statements for the provers, each from the rules of spec/ that its docstring names. The frames (SameRegs,
SameEntries, SameProgram, SameControl, FaultLeaves, SameButDead) are defined in Safety.lean. -/

namespace Sys2Proof.Claims

open Sys2Proof.Machine

/-! ### Arithmetic terms of 00_scope.md R13, stated by what characterises them -/

/-- `r` is `wrap32(n)`: in range and congruent to `n` modulo 2^32. -/
def IsWrap32 (n r : Int) : Prop := -(2 ^ 31 : Int) ≤ r ∧ r < (2 ^ 31 : Int) ∧ (2 ^ 32 : Int) ∣ n - r

/-- `q` is `a / b` rounded toward zero: the remainder is smaller than the divisor and has the sign of the dividend. -/
def IsTruncQuotient (a b q : Int) : Prop :=
  ∃ r : Int, a = b * q + r ∧ |r| < |b| ∧ (0 ≤ a → 0 ≤ r) ∧ (a ≤ 0 → r ≤ 0)

/-- A value of `n` bits read as signed. -/
abbrev InSigned (n : Nat) (v : Int) : Prop := -(2 ^ (n - 1) : Int) ≤ v ∧ v < (2 ^ (n - 1) : Int)

/-- Byte `k` of a word, byte 0 the least significant (R12). -/
def byteAt {n : Nat} (v : BitVec n) (k : Nat) : Byte := v.extractLsb' (8 * k) 8

/-! ### Pieces that several rules share -/

/-- A running block whose opcode byte at `ip` is that of `op`. -/
abbrev FetchesOpcode (op : Opcode) (s : State) : Prop :=
  s.status = .running ∧ s.cfg.opcodes.wf ∧ s.imemByte? s.ip = some (s.cfg.opcodes.byteOf op)

/-- The common fetch raises EndOfProgram at or past PROG_CAP, whatever the opcode would have been. -/
def FetchEndsAtProgCap : Prop :=
  ∀ s : State, s.status = .running → s.cfg.progCap ≤ s.ip →
    ∃ t, step s = .next t ∧ FaultLeaves .endOfProgram s t

/-- The common fetch of `op` raises EndOfProgram where any of its bytes would lie at or past PROG_CAP. -/
def FetchBounded (op : Opcode) : Prop :=
  FetchEndsAtProgCap ∧
  ∀ s, FetchesOpcode op s → s.cfg.progCap < s.ip + op.length →
    ∃ t, step s = .next t ∧ FaultLeaves .endOfProgram s t

/-- An instruction in a state raises a fault, with the effect of 60_exceptions.md R86. -/
def Raises (i : Instr) (k : FaultKind) (s : State) : Prop :=
  ∃ t, exec i s = .next t ∧ FaultLeaves k s t

/-- What a running block's step from `s` to `t` is, told by what the bytes at `ip` decode to (30_encoding.md R64). -/
def OutcomeOf (d : Decoded) (s t : State) : Prop :=
  match d with
  | .noOpcode => FaultLeaves .endOfProgram s t
  | .unknownOpcode _ => FaultLeaves .unknownOpcode s t
  | .truncated _ => FaultLeaves .endOfProgram s t
  | .instr i _ => i.wf = true ∧ exec i s = .next t

/-- What a binary operation leaves: `S[sp-2]` is `v`, `sp` is one less, `ip` one more, and nothing else is written. -/
def BinaryLeaves (v : Int) (s t : State) : Prop :=
  (t.entry (s.sp - 2)).toInt = v ∧ SameEntriesBut (s.sp - 2) s t ∧
  t.sp = s.sp - 1 ∧ t.ip = s.ip + 1 ∧
  t.out = s.out ∧ SameRegs s t ∧ SameControl s t ∧ SameProgram s t

/-- What a popping instruction leaves that goes on at `a`: `sp` is one less, the entry is not cleared, nothing else is written. -/
def PopLeaves (a : Nat) (s t : State) : Prop :=
  t.sp = s.sp - 1 ∧ t.ip = a ∧ SameEntries s t ∧
  t.out = s.out ∧ SameRegs s t ∧ SameControl s t ∧ SameProgram s t

/-- A valid register index (10_state.md R23). -/
abbrev ValidReg (r : Int) (s : State) : Prop := 0 ≤ r ∧ r < s.cfg.regCount

/-- A valid jump target (42_control_transfer.md R70). -/
abbrev ValidTarget (t : Int) (s : State) : Prop := 0 ≤ t ∧ t < s.progLen

/-- An instruction as an assembler item without labels. -/
def itemOf (i : Instr) : AsmItem :=
  .op i.opcode (if i.opcode.width = 0 then none else some (.num i.operand))

/-- The text of a program without labels: its instructions as R63 writes them, one separator character between two. -/
def textOf (sep : Char) (is : List Instr) : List Char := [sep].intercalate (is.map showInstr)

end Sys2Proof.Claims

open Sys2Proof Sys2Proof.Machine Sys2Proof.Claims

/-! ### Encoding and decoding -/

/-- Decoding the encoding of a well-formed instruction gives it back, with the bytes after it, under every opcode map the spec
allows and for every operand its field can hold (30_encoding.md R46-R50). -/
def Obligations.DecodeOfEncodeGivesTheInstruction : Prop :=
  ∀ m : OpcodeMap, m.wf → ∀ i : Instr, i.wf = true → ∀ rest : List Byte,
    decode m (encode m i ++ rest) = .instr i rest

/-- What decodes is well-formed, and its bytes are its encoding: no two byte sequences mean one instruction, and no bit of an
encoding is ignored (R46-R50, R52). -/
def Obligations.DecodedBytesAreTheEncoding : Prop :=
  ∀ (m : OpcodeMap) (bytes : List Byte) (i : Instr) (rest : List Byte),
    decode m bytes = .instr i rest → i.wf = true ∧ bytes = encode m i ++ rest

/-- Words written out from the table of R49 decode to what they stand for. -/
def Obligations.WordsOfTheTableDecode : Prop :=
  decodeTableWord 40 0xFFFFFFFE01 = some (.push (-2)) ∧
  decodeTableWord 16 0x6303 = some (.load 99) ∧
  decodeTableWord 16 0x8004 = some (.store (-128)) ∧
  decodeTableWord 24 0x000F05 = some (.jmp 15) ∧
  decodeTableWord 24 0xFFFF06 = some (.jz (-1)) ∧
  decodeTableWord 8 0x0B = some .div ∧
  decodeTableWord 8 0x0D = some .stop ∧
  decodeTableWord 8 0x0E = none

/-- R49: the opcode bytes and operand widths, in the order of its table. -/
def Obligations.OpcodeBytesAndWidths : Prop :=
  Opcode.all.map (fun op => ((OpcodeMap.standard.byteOf op).toNat, op.width)) =
    [(0x00, 0), (0x01, 4), (0x02, 0), (0x03, 1), (0x04, 1), (0x05, 2), (0x06, 2), (0x07, 2),
     (0x08, 0), (0x09, 0), (0x0A, 0), (0x0B, 0), (0x0C, 0), (0x0D, 0)] ∧
  (∀ op, op ∈ Opcode.all) ∧ OpcodeMap.standard.wf

/-- R51: the bytes 0x0E..0xFF, and no others, are illegal; fetching one raises UnknownOpcode whatever bytes follow (none is
read) and whatever room is left for an operand. -/
def Obligations.IllegalOpcodeBytesRaiseUnknownOpcode : Prop :=
  (∀ b : Byte, 0x0E ≤ b.toNat ↔ OpcodeMap.standard.opcode? b = none) ∧
  (∀ (b : Byte) (rest : List Byte), 0x0E ≤ b.toNat →
    decode OpcodeMap.standard (b :: rest) = .unknownOpcode b) ∧
  (∀ (s : State) (b : Byte), s.status = .running → s.cfg.opcodes = OpcodeMap.standard →
    s.imemByte? s.ip = some b → 0x0E ≤ b.toNat →
    ∃ t, step s = .next t ∧ FaultLeaves .unknownOpcode s t)

/-- R47: the operand is the bytes after the opcode, least-significant first, as a two's-complement signed integer of as many bits:
in that range and congruent to the sum of byte k times 256^k. Nothing is scaled or zero-extended. -/
def Obligations.OperandIsSignedLittleEndian : Prop :=
  ∀ bs : List Byte, bs.length = 1 ∨ bs.length = 2 ∨ bs.length = 4 →
    InSigned (8 * bs.length) (leInt bs) ∧
    (256 ^ bs.length : Int) ∣
      leInt bs - ((bs.zipIdx.map (fun p => p.1.toNat * 256 ^ p.2)).sum : Nat)

/-! ### The instruction cycle -/

/-- A step runs the decoded instruction: where the bytes at `ip` decode to `i`, the step of a running block is `exec i`, with
nothing around it (R55). -/
def Obligations.StepRunsTheDecodedInstruction : Prop :=
  ∀ (s : State) (i : Instr) (rest : List Byte), s.status = .running →
    decode s.cfg.opcodes s.window = .instr i rest → step s = exec i s

/-- A well-formed instruction whose encoding lies in the instruction store at `ip` is what the step of a running block runs,
wherever `ip` is (R38, R46, R55). -/
def Obligations.StepRunsTheInstructionStoredAtIp : Prop :=
  ∀ (s : State) (i : Instr), s.status = .running → s.cfg.opcodes.wf → i.wf = true →
    (∀ k, k < i.opcode.length → s.imemByte? (s.ip + k) = (encode s.cfg.opcodes i)[k]?) →
    step s = exec i s

/-- R55: the common fetch of a running block, case by case: EndOfProgram at or past PROG_CAP; UnknownOpcode on a byte that is no
opcode; EndOfProgram where the operand does not fit; else the instruction of the opcode with its operand, one whole instruction. -/
def Obligations.StepFollowsTheInstructionCycle : Prop :=
  ∀ s : State, s.status = .running →
    (s.cfg.progCap ≤ s.ip → ∃ t, step s = .next t ∧ FaultLeaves .endOfProgram s t) ∧
    (∀ b, s.imemByte? s.ip = some b → s.cfg.opcodes.opcode? b = none →
      ∃ t, step s = .next t ∧ FaultLeaves .unknownOpcode s t) ∧
    (∀ b op, s.imemByte? s.ip = some b → s.cfg.opcodes.opcode? b = some op →
      (s.cfg.progCap < s.ip + 1 + op.width →
        ∃ t, step s = .next t ∧ FaultLeaves .endOfProgram s t) ∧
      (s.ip + 1 + op.width ≤ s.cfg.progCap →
        step s = exec (.ofOperand op
          (leInt ((List.range op.width).map (fun k => s.imem.read (s.ip + 1 + k))))) s))

/-- R64, R112: a running block always has a next step, whatever its state and the store's contents, and what the bytes at `ip` decode
to says which one: EndOfProgram where the opcode or its operand is not there, UnknownOpcode where the byte is no opcode, else what
the decoded instruction, which is well-formed, answers; and an instruction always answers a next state. -/
def Obligations.RunningBlockAlwaysSteps : Prop :=
  (∀ s : State, s.status = .running → ∃ t, step s = .next t ∧
    OutcomeOf (decode s.cfg.opcodes s.window) s t) ∧
  (∀ (i : Instr) (s : State), ∃ t, exec i s = .next t)

/-- R57: a block that is Halted or Faulted has no step. -/
def Obligations.NoStepAfterTheRunHasEnded : Prop :=
  ∀ s : State, s.status ≠ .running → ∀ t, step s ≠ .next t

/-- R56: `next = ip + 1 + w` never passes PROG_CAP, and an instruction that leaves the block running ends there unless it takes
a jump; a JZ or JNZ that does not jump ends there too. -/
def Obligations.SequentialAdvance : Prop :=
  ∀ (s : State) (i : Instr) (rest : List Byte), s.status = .running →
    decode s.cfg.opcodes s.window = .instr i rest →
    s.ip + 1 + i.opcode.width ≤ s.cfg.progCap ∧
    ∀ t, step s = .next t → t.status = .running →
      ((∀ a, i ≠ .jmp a) → (∀ a, i ≠ .jz a) → (∀ a, i ≠ .jnz a) →
        t.ip = s.ip + 1 + i.opcode.width) ∧
      (∀ a, i = .jz a → (s.entry (s.sp - 1)).toInt ≠ 0 → t.ip = s.ip + 1 + i.opcode.width) ∧
      (∀ a, i = .jnz a → (s.entry (s.sp - 1)).toInt = 0 → t.ip = s.ip + 1 + i.opcode.width)

/-! ### Stack operations -/

/-- R65: NOP. -/
def Obligations.NopAdvances : Prop :=
  encode OpcodeMap.standard .nop = [0x00] ∧ FetchEndsAtProgCap ∧
  ∀ s : State, ∃ t, exec .nop s = .next t ∧ t.ip = s.ip + 1 ∧ t.sp = s.sp ∧
    SameEntries s t ∧ t.out = s.out ∧ SameRegs s t ∧ SameControl s t ∧ SameProgram s t

/-- R66: PUSH v. -/
def Obligations.PushPushesTheImmediate : Prop :=
  (∀ v : Int, encode OpcodeMap.standard (.push v) =
    [0x01, byteAt (BitVec.ofInt 32 v) 0, byteAt (BitVec.ofInt 32 v) 1,
      byteAt (BitVec.ofInt 32 v) 2, byteAt (BitVec.ofInt 32 v) 3]) ∧
  FetchBounded .push ∧
  (∀ (s : State) (v : Int), InSigned 32 v → s.sp < s.cfg.stackCap →
    ∃ t, exec (.push v) s = .next t ∧
      (t.entry s.sp).toInt = v ∧ SameEntriesBut s.sp s t ∧ t.sp = s.sp + 1 ∧ t.ip = s.ip + 5 ∧
      t.out = s.out ∧ SameRegs s t ∧ SameControl s t ∧ SameProgram s t) ∧
  (∀ (s : State) (v : Int), s.sp = s.cfg.stackCap → Raises (.push v) .stackOverflow s)

/-- R67: POP. -/
def Obligations.PopDiscardsTheTop : Prop :=
  encode OpcodeMap.standard .pop = [0x02] ∧ FetchEndsAtProgCap ∧
  (∀ s : State, 0 < s.sp → ∃ t, exec .pop s = .next t ∧ PopLeaves (s.ip + 1) s t) ∧
  (∀ s : State, s.sp = 0 → Raises .pop .stackUnderflow s)

/-! ### Register operations -/

/-- R68: LOAD r. -/
def Obligations.LoadPushesTheRegister : Prop :=
  (∀ r : Int, encode OpcodeMap.standard (.load r) = [0x03, BitVec.ofInt 8 r]) ∧
  FetchBounded .load ∧
  (∀ (s : State) (r : Int), ValidReg r s → s.sp < s.cfg.stackCap →
    ∃ t, exec (.load r) s = .next t ∧
      t.entry s.sp = s.reg r.toNat ∧ SameEntriesBut s.sp s t ∧ t.sp = s.sp + 1 ∧ t.ip = s.ip + 2 ∧
      t.out = s.out ∧ SameRegs s t ∧ SameControl s t ∧ SameProgram s t) ∧
  (∀ (s : State) (r : Int), ¬ ValidReg r s → Raises (.load r) .invalidRegister s) ∧
  (∀ (s : State) (r : Int), ValidReg r s → s.sp = s.cfg.stackCap →
    Raises (.load r) .stackOverflow s)

/-- R69: STORE r. -/
def Obligations.StorePopsIntoTheRegister : Prop :=
  (∀ r : Int, encode OpcodeMap.standard (.store r) = [0x04, BitVec.ofInt 8 r]) ∧
  FetchBounded .store ∧
  (∀ (s : State) (r : Int), ValidReg r s → 0 < s.sp →
    ∃ t, exec (.store r) s = .next t ∧
      t.reg r.toNat = s.entry (s.sp - 1) ∧ SameRegsBut r.toNat s t ∧
      t.sp = s.sp - 1 ∧ t.ip = s.ip + 2 ∧ SameEntries s t ∧
      t.out = s.out ∧ SameControl s t ∧ SameProgram s t) ∧
  (∀ (s : State) (r : Int), ¬ ValidReg r s → Raises (.store r) .invalidRegister s) ∧
  (∀ (s : State) (r : Int), ValidReg r s → s.sp = 0 → Raises (.store r) .stackUnderflow s)

/-! ### Control transfer -/

/-- R70: for JMP, and for JZ and JNZ when they jump, every target in `[0, L)` is accepted and every other raises
InvalidJumpTarget, nothing else written; PROG_CAP, alignment and what stands at the target play no part. -/
def Obligations.JumpTargetsAreCheckedAgainstTheProgramLength : Prop :=
  ∀ (s : State) (a : Int) (i : Instr),
    (i = .jmp a ∨ (i = .jz a ∧ 0 < s.sp ∧ (s.entry (s.sp - 1)).toInt = 0) ∨
      (i = .jnz a ∧ 0 < s.sp ∧ (s.entry (s.sp - 1)).toInt ≠ 0)) →
    (ValidTarget a s → ∃ t, exec i s = .next t ∧ (t.ip : Int) = a ∧ t.status = s.status) ∧
    (¬ ValidTarget a s → Raises i .invalidJumpTarget s)

/-- R71: JMP t. -/
def Obligations.JmpGoesToTheTarget : Prop :=
  (∀ a : Int, encode OpcodeMap.standard (.jmp a) =
    [0x05, byteAt (BitVec.ofInt 16 a) 0, byteAt (BitVec.ofInt 16 a) 1]) ∧
  FetchBounded .jmp ∧
  (∀ (s : State) (a : Int), ValidTarget a s →
    ∃ t, exec (.jmp a) s = .next t ∧ (t.ip : Int) = a ∧ t.sp = s.sp ∧ SameEntries s t ∧
      t.out = s.out ∧ SameRegs s t ∧ SameControl s t ∧ SameProgram s t) ∧
  (∀ (s : State) (a : Int), ¬ ValidTarget a s → Raises (.jmp a) .invalidJumpTarget s)

/-- R72: JZ t. -/
def Obligations.JzPopsAndJumpsOnZero : Prop :=
  (∀ a : Int, encode OpcodeMap.standard (.jz a) =
    [0x06, byteAt (BitVec.ofInt 16 a) 0, byteAt (BitVec.ofInt 16 a) 1]) ∧
  FetchBounded .jz ∧
  (∀ (s : State) (a : Int), 0 < s.sp → (s.entry (s.sp - 1)).toInt = 0 → ValidTarget a s →
    ∃ t, exec (.jz a) s = .next t ∧ PopLeaves a.toNat s t) ∧
  (∀ (s : State) (a : Int), 0 < s.sp → (s.entry (s.sp - 1)).toInt ≠ 0 →
    ∃ t, exec (.jz a) s = .next t ∧ PopLeaves (s.ip + 3) s t) ∧
  (∀ (s : State) (a : Int), 0 < s.sp → (s.entry (s.sp - 1)).toInt = 0 → ¬ ValidTarget a s →
    Raises (.jz a) .invalidJumpTarget s) ∧
  (∀ (s : State) (a : Int), s.sp = 0 → Raises (.jz a) .stackUnderflow s)

/-- R73: JNZ t; and for one stack and one operand exactly one of JZ and JNZ jumps. -/
def Obligations.JnzPopsAndJumpsOnNonzero : Prop :=
  (∀ a : Int, encode OpcodeMap.standard (.jnz a) =
    [0x07, byteAt (BitVec.ofInt 16 a) 0, byteAt (BitVec.ofInt 16 a) 1]) ∧
  FetchBounded .jnz ∧
  (∀ (s : State) (a : Int), 0 < s.sp → (s.entry (s.sp - 1)).toInt ≠ 0 → ValidTarget a s →
    ∃ t, exec (.jnz a) s = .next t ∧ PopLeaves a.toNat s t) ∧
  (∀ (s : State) (a : Int), 0 < s.sp → (s.entry (s.sp - 1)).toInt = 0 →
    ∃ t, exec (.jnz a) s = .next t ∧ PopLeaves (s.ip + 3) s t) ∧
  (∀ (s : State) (a : Int), 0 < s.sp → (s.entry (s.sp - 1)).toInt ≠ 0 → ¬ ValidTarget a s →
    Raises (.jnz a) .invalidJumpTarget s) ∧
  (∀ (s : State) (a : Int), s.sp = 0 → Raises (.jnz a) .stackUnderflow s) ∧
  (∀ (s : State) (a : Int), 0 < s.sp → ValidTarget a s →
    ∃ t u, exec (.jz a) s = .next t ∧ exec (.jnz a) s = .next u ∧
      ((t.ip = a.toNat ∧ u.ip = s.ip + 3) ∨ (t.ip = s.ip + 3 ∧ u.ip = a.toNat)))

/-- R115: a JMP to its own address runs forever: every number of steps leaves the state as it is. -/
def Obligations.JumpToItselfNeverEnds : Prop :=
  ∀ (s : State) (rest : List Byte), s.status = .running → s.ip < s.progLen →
    decode s.cfg.opcodes s.window = .instr (.jmp (s.ip : Int)) rest →
    ∀ n, Sys2Proof.core.run n s = .next s

/-! ### Arithmetic -/

/-- R78: ADD. -/
def Obligations.AddReplacesTheTopTwoByTheirSum : Prop :=
  encode OpcodeMap.standard .add = [0x08] ∧ FetchEndsAtProgCap ∧
  (∀ s : State, 2 ≤ s.sp → ∃ t v, exec .add s = .next t ∧ BinaryLeaves v s t ∧
    IsWrap32 ((s.entry (s.sp - 2)).toInt + (s.entry (s.sp - 1)).toInt) v) ∧
  (∀ s : State, s.sp < 2 → Raises .add .stackUnderflow s)

/-- R79: SUB, the entry pushed earlier minus the one pushed later. -/
def Obligations.SubReplacesTheTopTwoByTheirDifference : Prop :=
  encode OpcodeMap.standard .sub = [0x09] ∧ FetchEndsAtProgCap ∧
  (∀ s : State, 2 ≤ s.sp → ∃ t v, exec .sub s = .next t ∧ BinaryLeaves v s t ∧
    IsWrap32 ((s.entry (s.sp - 2)).toInt - (s.entry (s.sp - 1)).toInt) v) ∧
  (∀ s : State, s.sp < 2 → Raises .sub .stackUnderflow s)

/-- R80: MUL, the low 32 bits of the product. -/
def Obligations.MulReplacesTheTopTwoByTheirProduct : Prop :=
  encode OpcodeMap.standard .mul = [0x0A] ∧ FetchEndsAtProgCap ∧
  (∀ s : State, 2 ≤ s.sp → ∃ t v, exec .mul s = .next t ∧ BinaryLeaves v s t ∧
    IsWrap32 ((s.entry (s.sp - 2)).toInt * (s.entry (s.sp - 1)).toInt) v) ∧
  (∀ s : State, s.sp < 2 → Raises .mul .stackUnderflow s)

/-- R81: DIV, truncating toward zero; the stack condition comes before the divisor test. -/
def Obligations.DivReplacesTheTopTwoByTheirQuotient : Prop :=
  encode OpcodeMap.standard .div = [0x0B] ∧ FetchEndsAtProgCap ∧
  (∀ s : State, 2 ≤ s.sp → (s.entry (s.sp - 1)).toInt ≠ 0 →
    ∃ t q v, exec .div s = .next t ∧ BinaryLeaves v s t ∧
      IsTruncQuotient (s.entry (s.sp - 2)).toInt (s.entry (s.sp - 1)).toInt q ∧ IsWrap32 q v) ∧
  (∀ s : State, 2 ≤ s.sp → (s.entry (s.sp - 1)).toInt = 0 → Raises .div .divisionByZero s) ∧
  (∀ s : State, s.sp < 2 → Raises .div .stackUnderflow s)

/-- R76: the division law. The wrap changes a quotient only for −2^31 divided by −1, and then gives −2^31; with every other
divisor but 0 the result is the quotient rounded toward zero itself; divisor 0 raises DivisionByZero and pushes nothing. -/
def Obligations.DivisionLaw : Prop :=
  ∀ s : State, 2 ≤ s.sp →
    ((s.entry (s.sp - 1)).toInt ≠ 0 → ∃ t, exec .div s = .next t ∧
      BinaryLeaves (t.entry (s.sp - 2)).toInt s t ∧
      if (s.entry (s.sp - 2)).toInt = -(2 ^ 31) ∧ (s.entry (s.sp - 1)).toInt = -1
      then (t.entry (s.sp - 2)).toInt = -(2 ^ 31)
      else IsTruncQuotient (s.entry (s.sp - 2)).toInt (s.entry (s.sp - 1)).toInt
        (t.entry (s.sp - 2)).toInt) ∧
    ((s.entry (s.sp - 1)).toInt = 0 → Raises .div .divisionByZero s)

/-! ### Output and halt -/

/-- R82: PRINT. -/
def Obligations.PrintPopsAndEmits : Prop :=
  encode OpcodeMap.standard .print = [0x0C] ∧ FetchEndsAtProgCap ∧
  (∀ s : State, 0 < s.sp → ∃ t, exec .print s = .next t ∧
    t.out = s.out ++ [s.entry (s.sp - 1)] ∧ t.sp = s.sp - 1 ∧ t.ip = s.ip + 1 ∧
    SameEntries s t ∧ SameRegs s t ∧ SameControl s t ∧ SameProgram s t) ∧
  (∀ s : State, s.sp = 0 → Raises .print .stackUnderflow s)

/-- R83: STOP. -/
def Obligations.StopHalts : Prop :=
  encode OpcodeMap.standard .stop = [0x0D] ∧ FetchEndsAtProgCap ∧
  ∀ s : State, ∃ t, exec .stop s = .next t ∧ t.status = .halted ∧ t.ip = s.ip + 1 ∧
    t.sp = s.sp ∧ SameEntries s t ∧ SameRegs s t ∧ t.out = s.out ∧
    t.faultKind = s.faultKind ∧ t.faultPc = s.faultPc ∧ SameProgram s t

/-! ### Faults -/

/-- R86: whatever step of a running block ends Faulted, its fault is latched with the address of the opcode, nothing else of
the instruction is written, and the run has no further step. -/
def Obligations.FaultsArePrecise : Prop :=
  ∀ s t : State, s.status = .running → step s = .next t → t.status = .faulted →
    (∃ k, FaultLeaves k s t) ∧ ∀ u, step t ≠ .next u

/-- R85: an instruction raises no fault but its own. -/
def Obligations.InstructionsRaiseOnlyTheirOwnFaults : Prop :=
  ∀ (i : Instr) (s t : State), s.status = .running → exec i s = .next t → t.status = .faulted →
    ∃ k ∈ ownFaults i, t.faultKind = some k

/-- R89: where several fault conditions hold, the first of the rule's list is reported. -/
def Obligations.FaultPriority : Prop :=
  (∀ s : State, s.status = .running → s.cfg.progCap ≤ s.ip →
    ∃ t, step s = .next t ∧ FaultLeaves .endOfProgram s t) ∧
  (∀ (s : State) (b : Byte), s.status = .running → s.imemByte? s.ip = some b →
    s.cfg.opcodes.opcode? b = none → ∃ t, step s = .next t ∧ FaultLeaves .unknownOpcode s t) ∧
  (∀ (s : State) (op : Opcode), FetchesOpcode op s → s.cfg.progCap < s.ip + 1 + op.width →
    ∃ t, step s = .next t ∧ FaultLeaves .endOfProgram s t) ∧
  (∀ (s : State) (r : Int), ¬ ValidReg r s →
    Raises (.load r) .invalidRegister s ∧ Raises (.store r) .invalidRegister s) ∧
  (∀ (s : State) (r v : Int), s.sp = s.cfg.stackCap →
    Raises (.push v) .stackOverflow s ∧ (ValidReg r s → Raises (.load r) .stackOverflow s)) ∧
  (∀ (s : State) (r : Int), s.sp = 0 → ValidReg r s → Raises (.store r) .stackUnderflow s) ∧
  (∀ (s : State) (i : Instr) (a : Int), s.sp = 0 →
    (i = .pop ∨ i = .print ∨ i = .jz a ∨ i = .jnz a) → Raises i .stackUnderflow s) ∧
  (∀ (s : State) (i : Instr), s.sp < 2 →
    (i = .add ∨ i = .sub ∨ i = .mul ∨ i = .div) → Raises i .stackUnderflow s) ∧
  (∀ (s : State) (a : Int), ¬ ValidTarget a s →
    Raises (.jmp a) .invalidJumpTarget s ∧
    (0 < s.sp → (s.entry (s.sp - 1)).toInt = 0 → Raises (.jz a) .invalidJumpTarget s) ∧
    (0 < s.sp → (s.entry (s.sp - 1)).toInt ≠ 0 → Raises (.jnz a) .invalidJumpTarget s)) ∧
  (∀ s : State, 2 ≤ s.sp → (s.entry (s.sp - 1)).toInt = 0 → Raises .div .divisionByZero s)

/-- R24, R84: the codes, and that the two ports show them. -/
def Obligations.StatusAndFaultCodes : Prop :=
  ([RunStatus.running, .halted, .faulted].map RunStatus.code = [0, 1, 2]) ∧
  ([FaultKind.stackOverflow, .stackUnderflow, .invalidRegister, .invalidJumpTarget,
    .unknownOpcode, .divisionByZero, .endOfProgram].map FaultKind.code = [1, 2, 3, 4, 5, 6, 7]) ∧
  (∀ s : State, s.statusPort = s.status.code) ∧
  (∀ s : State, s.faultKind = none → s.faultKindPort = 0) ∧
  (∀ (s : State) (k : FaultKind), s.faultKind = some k → s.faultKindPort = k.code) ∧
  (∀ s : State, s.statusPort ≠ 3)

/-- R92: the run result. -/
def Obligations.RunResultFollowsStatusAndKind : Prop :=
  ∀ s : State,
    (s.status = .halted → s.runResult = some .halted) ∧
    (∀ k, s.status = .faulted → s.faultKind = some k → s.runResult = some (.faulted k)) ∧
    (s.status = .running → s.runResult = none)

/-! ### The whole machine -/

/-- Every step keeps a state legal: `ip` in 0..PROG_CAP, `sp` in 0..STACK_CAP, nothing stored past a capacity, and the fault latch
0 unless Faulted (R10, R16, R18, R19, R22, R25, R28, R33). That the three storages are in canonical form is no rule's: it is the
model's choice, log entry 6 (DEDUCED). -/
def Obligations.StepKeepsTheStateLegal : Prop :=
  ∀ s t : State, s.wf → step s = .next t → t.wf

/-- The state after reset is legal. Two of its clauses are the model's choice and no rule's: L = 0, log entry 4 (DESIGN CHOICE; any
L up to PROG_CAP would do), and the canonical form of the three storages, log entry 6 (DEDUCED). -/
def Obligations.ResetStateIsLegal : Prop := State.reset.wf

/-- R16: `ip` never leaves 0..PROG_CAP, and its hardware width is the least that holds PROG_CAP, 11 bits by default. -/
def Obligations.InstructionPointerStaysInRange : Prop :=
  (∀ s t : State, s.ip ≤ s.cfg.progCap → s.progLen ≤ s.cfg.progCap → step s = .next t →
    t.ip ≤ t.cfg.progCap) ∧
  (∀ c : Config, c.progCap < 2 ^ Config.ipWidth c ∧
    ∀ w, c.progCap < 2 ^ w → Config.ipWidth c ≤ w) ∧
  Config.ipWidth Config.default = 11

/-- R19: `sp` never exceeds the capacity and changes by at most one; its hardware width is the least that holds STACK_CAP, 8 bits
by default. -/
def Obligations.StackPointerStaysInRange : Prop :=
  (∀ s t : State, s.sp ≤ s.cfg.stackCap → step s = .next t →
    t.sp ≤ t.cfg.stackCap ∧ t.sp ≤ s.sp + 1 ∧ s.sp ≤ t.sp + 1) ∧
  (∀ c : Config, c.stackCap < 2 ^ Config.spWidth c ∧
    ∀ w, c.stackCap < 2 ^ w → Config.spWidth c ≤ w) ∧
  Config.spWidth Config.default = 8

/-- R35, R45: nothing a run does changes the instruction store, L or the parameters, so every fetch reads the bytes of run start. -/
def Obligations.ProgramIsFixedForTheRun : Prop :=
  ∀ (n : Nat) (s t : State), Sys2Proof.core.run n s = .next t → SameProgram s t

/-- R22: only STORE writes a register, and only the one its index names. -/
def Obligations.OnlyStoreWritesARegister : Prop :=
  ∀ (i : Instr) (s t : State), exec i s = .next t →
    ((∀ r, i ≠ .store r) → SameRegs s t) ∧
    (∀ r, i = .store r → ∀ k : Nat, (k : Int) ≠ r → t.reg k = s.reg k)

/-- R22: only LOAD reads a register: every other instruction does the same to everything but the registers whatever the registers
hold, and to each register too: it leaves the register alone under both register files, or gives it the same value. -/
def Obligations.OnlyLoadReadsARegister : Prop :=
  ∀ (i : Instr) (s t : State) (x : Cells 32), (∀ r, i ≠ .load r) → exec i s = .next t →
    ∃ u, exec i { s with regs := x } = .next u ∧ u = { t with regs := u.regs } ∧
      ∀ k, (u.reg k = x.read k ∧ t.reg k = s.reg k) ∨ u.reg k = t.reg k

/-- R26: the output only grows, by one value at most in a step; only PRINT emits; and no run withdraws a value. -/
def Obligations.OutputIsAppendOnly : Prop :=
  (∀ (i : Instr) (s t : State), exec i s = .next t → i ≠ .print → t.out = s.out) ∧
  (∀ s t : State, step s = .next t → t.out = s.out ∨ ∃ v, t.out = s.out ++ [v]) ∧
  (∀ (n : Nat) (s t : State), Sys2Proof.core.run n s = .next t → s.out <+: t.out)

/-- R105: `out_data` shows a value in a step exactly when the step appends that value to the output. -/
def Obligations.OutputPortShowsEachEmittedValue : Prop :=
  ∀ s t : State, step s = .next t → ∀ v, outData? s t = some v ↔ t.out = s.out ++ [v]

/-- R20, R21: a step writes no entry below the top two; a live entry below them keeps its value and stays live. -/
def Obligations.EntriesBelowTheTopTwoAreKept : Prop :=
  ∀ s t : State, step s = .next t → ∀ k, k + 2 < s.sp → t.entry k = s.entry k ∧ k < t.sp

/-- R20, R30: dead stack entries cannot be observed: two states that differ in dead entries alone run alike for any number of
steps, in every register, pointer, status, fault and output, and still differ in dead entries alone. -/
def Obligations.DeadEntriesAreUnobservable : Prop :=
  ∀ (n : Nat) (s s' t : State), SameButDead s s' → Sys2Proof.core.run n s = .next t →
    ∃ t', Sys2Proof.core.run n s' = .next t' ∧ SameButDead t t'

/-- R24, R83: STOP, and no other instruction, ends a run as Halted. -/
def Obligations.OnlyStopHalts : Prop :=
  ∀ (i : Instr) (s t : State), s.status = .running → exec i s = .next t →
    (t.status = .halted ↔ i = .stop)

/-- R54, R115: zero bytes from `ip` to the end of the store run as NOPs up to PROG_CAP and then fault EndOfProgram there. -/
def Obligations.PaddingRunsAsNopsThenEndsTheProgram : Prop :=
  ∀ s : State, s.status = .running → s.cfg.opcodes.wf → s.ip ≤ s.cfg.progCap →
    (∀ a, s.ip ≤ a → a < s.cfg.progCap → s.imemByte? a = some 0) →
    (∀ n, n ≤ s.cfg.progCap - s.ip →
      Sys2Proof.core.run n s = .next { s with ip := s.ip + n }) ∧
    Sys2Proof.core.run (s.cfg.progCap - s.ip + 1) s =
      .next { s with ip := s.cfg.progCap, status := .faulted, faultKind := some .endOfProgram,
                     faultPc := s.cfg.progCap }

/-! ### Reset and the host -/

/-- The values of R31 that the rule gives and that do not depend on a program, for any parameters and at the default reset: every
register and stack entry 0, `ip` and `sp` 0, Running, nothing latched, no output. -/
def Obligations.ResetValues : Prop :=
  (∀ c : Config, (State.initial c).cfg = c ∧ (State.initial c).ip = 0 ∧ (State.initial c).sp = 0 ∧
    (∀ i, (State.initial c).entry i = 0) ∧ (∀ r, (State.initial c).reg r = 0) ∧
    (State.initial c).status = .running ∧ (State.initial c).faultKind = none ∧
    (State.initial c).faultPc = 0 ∧ (State.initial c).out = []) ∧
  State.reset = State.initial Config.default ∧
  Config.default.progCap = 1024 ∧ Config.default.stackCap = 255 ∧ Config.default.regCount = 16 ∧
  Config.default.opcodes = OpcodeMap.standard

/-- R31, R34, R101, R103: the boot order of R104 from a running block, whatever its state was: every value of R31, the program's
bytes below L, zero padding above, L the bytes that fit, and the excess dropped without a fault. -/
def Obligations.BootLoadsTheProgram : Prop :=
  ∀ (b : Block) (src : List Byte), b.rst = false →
    ∃ t, Block.onAll (bootEvents b.core.cfg src) b = .next { rst := false, core := t } ∧
      t.cfg = b.core.cfg ∧ t.progLen = min src.length t.cfg.progCap ∧
      (∀ a, a < t.progLen → t.imemByte? a = src[a]?) ∧
      (∀ a, t.progLen ≤ a → a < t.cfg.progCap → t.imemByte? a = some 0) ∧
      t.ip = 0 ∧ t.sp = 0 ∧ (∀ i, t.entry i = 0) ∧ (∀ r, t.reg r = 0) ∧
      t.status = .running ∧ t.faultKind = none ∧ t.faultPc = 0 ∧ t.out = []

/-- R107: while `rst` is 0 the host's writes of the store and of L are ignored, and asserting reset is honoured in every
state, ended runs too (R88). The state it leaves is `State.initial`, whose L = 0 is the model's choice and no rule's, log entry 4
(DESIGN CHOICE, unsafe): R31 leaves L to the host. -/
def Obligations.HostWritesCountOnlyUnderReset : Prop :=
  ∀ b : Block, b.rst = false →
    (∀ a d, b.on (.loadByte a d) = .next b) ∧ (∀ n, b.on (.setProgLen n) = .next b) ∧
    b.on .assertReset = .next { rst := true, core := State.initial b.core.cfg }

/-- The model's canonical form (log entry 6), for the instruction store (w = 8), the stack memory and the register file (w = 32)
and every other width: two storages in canonical form that read alike at every index are equal data, and a write keeps the form,
reads back, and leaves every other index alone. -/
def Obligations.StorageIsExtensional : Prop :=
  ∀ (w : Nat) (c d : Cells w), c.wf → d.wf →
    ((∀ a, c.read a = d.read a) → c = d) ∧
    (∀ a v, (c.write a v).wf ∧ (c.write a v).read a = v ∧ ∀ k, k ≠ a → (c.write a v).read k = c.read k)

/-! ### Assembler text -/

/-- R59, R60, R62: a program without labels whose operands fit assembles: its items to exactly one instruction for each mnemonic,
in order; and its text, one instruction per line or with blanks between them, to the bytes of those instructions. -/
def Obligations.LabelFreeProgramsAssemble : Prop :=
  ∀ is : List Instr, (∀ i ∈ is, i.wf = true) →
    resolve? (is.map itemOf) = some is ∧
    ∀ (m : OpcodeMap) (sep : Char), sep = '\n' ∨ sep = ' ' →
      assemble? m (textOf sep is) = some (encodeAll m is)

/-- R59, R60, R63: the disassembly of a well-formed instruction is text that assembles to the instruction's own bytes. -/
def Obligations.DisassemblyAssemblesBack : Prop :=
  ∀ (m : OpcodeMap) (i : Instr), i.wf = true → assemble? m (showInstr i) = some (encode m i)
end

