-- ==== Sys2Proof/Laws/PerInstr.lean ====
section
/-! SUPPORT. Facts about every instruction as syntax, one lemma per constructor. -/

namespace Sys2Proof.Laws

theorem leBytes_length (n : Nat) (v : Int) : (leBytes n v).length = n := by
  induction n generalizing v with
  | zero => rfl
  | succ n ih => simp [leBytes, ih]

namespace EncodeLength

/-- An instruction's encoding is as long as its opcode says (30_encoding.md R50). -/
def Statement (i : Instr) : Prop := ∀ m : OpcodeMap, (encode m i).length = i.opcode.length

/-- Every instruction, by the length of its operand bytes. -/
theorem of_leBytes (i : Instr) : Statement i := fun m => by
  simp [encode, leBytes_length, Opcode.length, Nat.add_comm]

theorem nop : Statement .nop := of_leBytes _
theorem push (v : Int) : Statement (.push v) := of_leBytes _
theorem pop : Statement .pop := of_leBytes _
theorem load (r : Int) : Statement (.load r) := of_leBytes _
theorem store (r : Int) : Statement (.store r) := of_leBytes _
theorem jmp (t : Int) : Statement (.jmp t) := of_leBytes _
theorem jz (t : Int) : Statement (.jz t) := of_leBytes _
theorem jnz (t : Int) : Statement (.jnz t) := of_leBytes _
theorem add : Statement .add := of_leBytes _
theorem sub : Statement .sub := of_leBytes _
theorem mul : Statement .mul := of_leBytes _
theorem div : Statement .div := of_leBytes _
theorem print : Statement .print := of_leBytes _
theorem stop : Statement .stop := of_leBytes _

end EncodeLength

end Sys2Proof.Laws
end

