-- ==== Sys2Proof/Laws/Decode.lean ====
section
/-! SUPPORT. The laws of the opcode map, of little-endian operands, and of the decoder. -/

namespace Sys2Proof

/-- The list of operations is complete. -/
theorem Opcode.mem_all (op : Opcode) : op ∈ Opcode.all := by cases op <;> simp [Opcode.all]

/-- A byte that stands for an operation is that operation's byte. -/
theorem byteOf_of_opcode? {m : OpcodeMap} {b : Byte} {op : Opcode} (h : m.opcode? b = some op) :
    m.byteOf op = b := by
  have := List.find?_some h
  simpa using this

/-- Under a map the spec allows, an operation's byte stands for it. -/
theorem opcode?_byteOf {m : OpcodeMap} (h : m.wf) (op : Opcode) :
    m.opcode? (m.byteOf op) = some op := by
  have hinj : ∀ a ∈ Opcode.all, ∀ b ∈ Opcode.all, m.byteOf a = m.byteOf b → a = b :=
    fun a ha b hb e => List.inj_on_of_nodup_map h.2 ha hb e
  cases hf : m.opcode? (m.byteOf op) with
  | none =>
    have := List.find?_eq_none.mp hf op (Opcode.mem_all op)
    simp at this
  | some o =>
    exact congrArg some (hinj o (Opcode.mem_all o) op (Opcode.mem_all op) (byteOf_of_opcode? hf))

/-- An unsigned little-endian value fits its bytes. -/
theorem leNat_lt (bs : List Byte) : leNat bs < 256 ^ bs.length := by
  induction bs with
  | nil => simp [leNat]
  | cons b bs ih =>
    have := b.isLt
    simp only [leNat, List.length_cons, Nat.pow_succ]
    omega

/-- The unsigned value of a signed integer's bytes is the integer modulo 256^n. -/
theorem leNat_leBytes (n : Nat) (v : Int) : (leNat (leBytes n v) : Int) = v % 256 ^ n := by
  induction n generalizing v with
  | zero => simp [leBytes, leNat]
  | succ n ih =>
    have h1 : ((BitVec.ofInt 8 v).toNat : Int) = v % 256 := by
      simp [BitVec.toNat_ofInt, Int.emod_nonneg]
    have hlt := leNat_lt (leBytes (n + 1) v)
    rw [Laws.leBytes_length] at hlt
    have hx : ((leNat (leBytes (n + 1) v) : Nat) : Int) =
        v % 256 + 256 * ((v / 256) % 256 ^ n) := by
      rw [leBytes, leNat]; push_cast; rw [h1, ih]
    have hv : v = ((leNat (leBytes (n + 1) v) : Nat) : Int) + 256 ^ (n + 1) * (v / 256 / 256 ^ n) := by
      rw [hx]
      have e1 := Int.emod_add_mul_ediv v 256
      have e2 := Int.emod_add_mul_ediv (v / 256) (256 ^ n)
      calc v = v % 256 + 256 * (v / 256) := e1.symm
        _ = v % 256 + 256 * (v / 256 % 256 ^ n + 256 ^ n * (v / 256 / 256 ^ n)) := by rw [e2]
        _ = _ := by ring
    conv_rhs => rw [hv]
    rw [Int.add_mul_emod_self_left, Int.emod_eq_of_lt (by positivity) (by exact_mod_cast hlt)]

/-- The signed value of a signed integer's bytes is the integer narrowed to their width. -/
theorem leInt_leBytes (n : Nat) (v : Int) : leInt (leBytes n v) = (BitVec.ofInt (8 * n) v).toInt := by
  rw [leInt, Laws.leBytes_length]
  congr 1
  apply BitVec.eq_of_toNat_eq
  have h := leNat_leBytes n v
  have h2 : ((2 : Int) ^ (8 * n)) = 256 ^ n := by rw [pow_mul]; norm_num
  simp only [BitVec.toNat_ofNat, BitVec.toNat_ofInt]
  zify
  rw [h]
  simp only [h2, Int.emod_emod_of_dvd _ dvd_rfl]
  rw [Int.toNat_of_nonneg (Int.emod_nonneg _ (by positivity))]

/-- The range of a field, as inequalities. -/
theorem fits_iff (w : Nat) (v : Int) : fitsSigned w v = true ↔
    -(2 ^ (8 * w - 1) : Int) ≤ v ∧ v < (2 ^ (8 * w - 1) : Int) := by simp [fitsSigned]

/-- An integer in its field's range is read back as written. -/
theorem leInt_leBytes_of_fits {w : Nat} (hw : 0 < w) {v : Int} (h : fitsSigned w v = true) :
    leInt (leBytes w v) = v := by
  rw [leInt_leBytes, BitVec.toInt_ofInt]
  rw [fits_iff] at h
  have h2 : ((2 ^ (8 * w) : Nat) : Int) = 2 * 2 ^ (8 * w - 1) := by
    rw [← pow_succ']; push_cast; congr 1; omega
  apply Int.bmod_eq_of_le_mul_two
  · rw [h2]; omega
  · rw [h2]; omega

/-- What is read from a field lies in its range. -/
theorem fits_leInt (bs : List Byte) : fitsSigned bs.length (leInt bs) = true := by
  rw [fits_iff]
  exact ⟨BitVec.le_toInt _, BitVec.toInt_lt⟩

/-- Decoding from a known opcode byte. -/
theorem decode_cons {m : OpcodeMap} {b : Byte} {op : Opcode} (h : m.opcode? b = some op) (rest : List Byte) :
   decode m (b :: rest) = if rest.length < op.width then .truncated op
      else .instr (.ofOperand op (leInt (rest.take op.width))) (rest.drop op.width) := by
  simp only [decode, h]

/-- Everything a successful decoding says of its bytes. -/
theorem decode_instr {m : OpcodeMap} {bytes : List Byte} {i : Instr} {rest : List Byte} (h : decode m bytes = .instr i rest) :
    ∃ b op tl, bytes = b :: tl ∧ m.opcode? b = some op ∧ op.width ≤ tl.length ∧
      i = .ofOperand op (leInt (tl.take op.width)) ∧ rest = tl.drop op.width := by
  cases bytes with
  | nil => simp [decode] at h
  | cons b tl =>
    cases ho : m.opcode? b with
    | none => simp [decode, ho] at h
    | some op =>
      rw [decode_cons ho] at h
      split at h
      · cases h
      · next hl =>
        injection h with h1 h2
        exact ⟨b, op, tl, rfl, ho, Nat.not_lt.mp hl, h1.symm, h2.symm⟩

/-- The operation of an instruction built from an operation. -/
theorem opcode_ofOperand (op : Opcode) (v : Int) : (Instr.ofOperand op v).opcode = op := by
  cases op <;> rfl

/-- An operation with an operand in its field's range is well-formed. -/
theorem ofOperand_wf {op : Opcode} {v : Int} (h : fitsSigned op.width v = true) :
    (Instr.ofOperand op v).wf = true := by
  cases op <;> first | rfl | exact h

/-- Bytes are written back as they were read. -/
theorem leBytes_leInt (bs : List Byte) : leBytes bs.length (leInt bs) = bs := by
  have hinj : ∀ as bs : List Byte, as.length = bs.length → leNat as = leNat bs → as = bs := by
    intro as
    induction as with
    | nil => intro bs h _; exact (List.length_eq_zero_iff.mp h.symm).symm
    | cons a as ih =>
      intro bs h e
      cases bs with
      | nil => simp at h
      | cons b bs =>
        simp only [leNat] at e
        have := a.isLt; have := b.isLt
        have hab : a = b := BitVec.eq_of_toNat_eq (by omega)
        rw [hab, ih bs (by simpa using h) (by omega)]
  apply hinj _ _ (Laws.leBytes_length _ _)
  have h := leNat_leBytes bs.length (leInt bs)
  have hl := leNat_lt bs
  have h2 : ((2 : Nat) ^ (8 * bs.length)) = 256 ^ bs.length := by rw [pow_mul]; norm_num
  have : (leInt bs) % 256 ^ bs.length = leNat bs := by
    rw [leInt, BitVec.toInt_eq_toNat_bmod]
    simp only [BitVec.toNat_ofNat, h2, Nat.mod_eq_of_lt hl]
    have := Int.bmod_emod (x := (leNat bs : Int)) (m := 256 ^ bs.length)
    push_cast at this
    rw [this]
    exact Int.emod_eq_of_lt (by positivity) (by exact_mod_cast hl)
  rw [this] at h
  exact_mod_cast h

end Sys2Proof
end

