-- ==== Sys2Proof/Laws/Memory.lean ====
section
/-! SUPPORT. The laws of indexed storage: read after write, canonical form kept, equal contents are equal data. -/

namespace Sys2Proof.Machine

variable {w : Nat}

@[simp] theorem Cells.read_nil (a : Nat) : Cells.read ([] : Cells w) a = 0 := rfl

theorem Cells.read_cons (k : Nat) (v : BitVec w) (rest : Cells w) (a : Nat) :
    Cells.read ((k, v) :: rest) a = if k = a then v else Cells.read rest a := rfl

/-! ### Reading after writing -/

theorem Cells.read_erase_same (c : Cells w) (a : Nat) : (c.erase a).read a = 0 := by
  induction c with
  | nil => rfl
  | cons p rest ih =>
    obtain ⟨k, v⟩ := p
    by_cases h : k = a
    · simpa [Cells.erase, h] using ih
    · simpa [Cells.erase, h, Cells.read_cons] using ih

theorem Cells.read_erase_other (c : Cells w) {a b : Nat} (h : b ≠ a) :
    (c.erase a).read b = c.read b := by
  induction c with
  | nil => rfl
  | cons p rest ih =>
    obtain ⟨k, v⟩ := p
    by_cases hk : k = a
    · subst hk
      simpa [Cells.erase, Cells.read_cons, Ne.symm h] using ih
    · by_cases hb : k = b
      · simp [Cells.erase, Cells.read_cons, hb, h]
      · simpa [Cells.erase, Cells.read_cons, hk, hb] using ih

theorem Cells.read_insert_other (c : Cells w) {a b : Nat} (v : BitVec w) (h : b ≠ a) :
    (c.insert a v).read b = c.read b := by
  induction c with
  | nil => simp [Cells.insert, Cells.read_cons, Ne.symm h]
  | cons p rest ih =>
    obtain ⟨k, u⟩ := p
    by_cases hk : a < k
    · simp [Cells.insert, hk, Cells.read_cons, Ne.symm h]
    · simp [Cells.insert, hk, Cells.read_cons, ih]

theorem Cells.read_insert_same (c : Cells w) (a : Nat) (v : BitVec w) (h : ∀ p ∈ c, p.1 ≠ a) :
    (c.insert a v).read a = v := by
  induction c with
  | nil => simp [Cells.insert, Cells.read_cons]
  | cons p rest ih =>
    obtain ⟨k, u⟩ := p
    have hk : k ≠ a := h (k, u) (List.mem_cons_self ..)
    by_cases hlt : a < k
    · simp [Cells.insert, hlt, Cells.read_cons]
    · simpa [Cells.insert, hlt, Cells.read_cons, hk] using
        ih (fun p hp => h p (List.mem_cons_of_mem _ hp))

theorem Cells.erase_keys (c : Cells w) (a : Nat) : ∀ p ∈ c.erase a, p.1 ≠ a := by
  intro p hp
  simpa using (List.mem_filter.mp hp).2

/-- Reading the index written gives the value written. -/
@[simp] theorem Cells.read_write_same (c : Cells w) (a : Nat) (v : BitVec w) :
    (c.write a v).read a = v := by
  by_cases hv : v = 0
  · simpa [Cells.write, hv] using c.read_erase_same a
  · simpa only [Cells.write, if_neg hv] using (c.erase a).read_insert_same a v (c.erase_keys a)

/-- A write leaves every other index alone. -/
theorem Cells.read_write_other (c : Cells w) {a b : Nat} (v : BitVec w) (h : b ≠ a) :
    (c.write a v).read b = c.read b := by
  by_cases hv : v = 0
  · simpa [Cells.write, hv] using c.read_erase_other h
  · simpa only [Cells.write, if_neg hv, Cells.read_insert_other _ v h] using c.read_erase_other h

/-- Both cases of reading after writing. -/
theorem Cells.read_write (c : Cells w) (a b : Nat) (v : BitVec w) :
    (c.write a v).read b = if b = a then v else c.read b := by
  split
  · next h => simp [h]
  · next h => exact c.read_write_other v h

/-! ### The canonical form is kept -/

theorem Cells.nil_wf : Cells.wf ([] : Cells w) := by simp [Cells.wf]

theorem Cells.wf_tail {p : Nat × BitVec w} {rest : Cells w} (h : Cells.wf (p :: rest)) :
    Cells.wf rest := by
  simp only [Cells.wf, List.map_cons, List.pairwise_cons, List.forall_mem_cons] at h
  exact ⟨h.1.2, h.2.2⟩

theorem Cells.wf_head_lt {p : Nat × BitVec w} {rest : Cells w} (h : Cells.wf (p :: rest)) :
    ∀ q ∈ rest, p.1 < q.1 := by
  simp only [Cells.wf, List.map_cons, List.pairwise_cons] at h
  exact fun q hq => h.1.1 q.1 (List.mem_map_of_mem hq)

theorem Cells.wf_cons {p : Nat × BitVec w} {rest : Cells w} (hv : p.2 ≠ 0)
    (hlt : ∀ q ∈ rest, p.1 < q.1) (h : Cells.wf rest) : Cells.wf (p :: rest) := by
  refine ⟨?_, ?_⟩
  · simp only [List.map_cons, List.pairwise_cons, List.mem_map]
    refine ⟨?_, h.1⟩
    rintro _ ⟨q, hq, rfl⟩
    exact hlt q hq
  · simpa [List.forall_mem_cons] using And.intro hv h.2

theorem Cells.mem_erase {c : Cells w} {a : Nat} {p : Nat × BitVec w} (h : p ∈ c.erase a) : p ∈ c :=
  (List.mem_filter.mp h).1

theorem Cells.mem_insert {c : Cells w} {a : Nat} {v : BitVec w} {p : Nat × BitVec w}
    (h : p ∈ c.insert a v) : p = (a, v) ∨ p ∈ c := by
  induction c with
  | nil => simpa [Cells.insert] using h
  | cons q rest ih =>
    obtain ⟨k, u⟩ := q
    by_cases hlt : a < k
    · simpa [Cells.insert, hlt] using h
    · simp only [Cells.insert, hlt, if_false, List.mem_cons] at h
      rcases h with rfl | h
      · exact .inr (List.mem_cons_self ..)
      · exact (ih h).imp_right (List.mem_cons_of_mem _)

theorem Cells.erase_wf {c : Cells w} (h : c.wf) (a : Nat) : (c.erase a).wf := by
  refine ⟨?_, fun p hp => h.2 p (Cells.mem_erase hp)⟩
  exact h.1.sublist (List.filter_sublist.map Prod.fst)

theorem Cells.insert_wf {c : Cells w} (h : c.wf) {a : Nat} {v : BitVec w} (hv : v ≠ 0)
    (ha : ∀ p ∈ c, p.1 ≠ a) : (c.insert a v).wf := by
  induction c with
  | nil => simpa [Cells.insert, Cells.wf] using hv
  | cons q rest ih =>
    obtain ⟨k, u⟩ := q
    have hk : k ≠ a := ha (k, u) (List.mem_cons_self ..)
    by_cases hlt : a < k
    · simp only [Cells.insert, hlt, if_true]
      refine Cells.wf_cons hv ?_ h
      intro q hq
      rcases List.mem_cons.mp hq with rfl | hq
      · exact hlt
      · exact hlt.trans (Cells.wf_head_lt h q hq)
    · simp only [Cells.insert, hlt, if_false]
      refine Cells.wf_cons (h.2 (k, u) (List.mem_cons_self ..)) ?_
        (ih (Cells.wf_tail h) (fun p hp => ha p (List.mem_cons_of_mem _ hp)))
      intro q hq
      rcases Cells.mem_insert hq with rfl | hq
      · exact lt_of_le_of_ne (Nat.le_of_not_lt hlt) hk
      · exact Cells.wf_head_lt h q hq

/-- A write keeps the canonical form. -/
theorem Cells.write_wf {c : Cells w} (h : c.wf) (a : Nat) (v : BitVec w) : (c.write a v).wf := by
  by_cases hv : v = 0
  · simpa only [Cells.write, hv, if_true] using Cells.erase_wf h a
  · simpa only [Cells.write, hv, if_false] using
      Cells.insert_wf (Cells.erase_wf h a) hv (c.erase_keys a)

/-- A write below a capacity keeps every index below it. -/
theorem Cells.write_below {c : Cells w} {cap : Nat} (h : c.below cap) {a : Nat} (v : BitVec w)
    (ha : a < cap) : (c.write a v).below cap := by
  intro p hp
  by_cases hv : v = 0
  · simp only [Cells.write, hv, if_true] at hp
    exact h p (Cells.mem_erase hp)
  · simp only [Cells.write, hv, if_false] at hp
    rcases Cells.mem_insert hp with rfl | hp
    · exact ha
    · exact h p (Cells.mem_erase hp)

end Sys2Proof.Machine
end

