-- ==== Sys2Proof/Laws/State.lean ====
section
/-! SUPPORT. One lemma per field per state update, and the readers of the storages after each update that writes them. -/

namespace Sys2Proof.Machine

variable (s : State)

@[simp] theorem State.goto_cfg (a : Nat) : (s.goto a).cfg = s.cfg := rfl
@[simp] theorem State.goto_imem (a : Nat) : (s.goto a).imem = s.imem := rfl
@[simp] theorem State.goto_progLen (a : Nat) : (s.goto a).progLen = s.progLen := rfl
@[simp] theorem State.goto_ip (a : Nat) : (s.goto a).ip = a := rfl
@[simp] theorem State.goto_stack (a : Nat) : (s.goto a).stack = s.stack := rfl
@[simp] theorem State.goto_sp (a : Nat) : (s.goto a).sp = s.sp := rfl
@[simp] theorem State.goto_regs (a : Nat) : (s.goto a).regs = s.regs := rfl
@[simp] theorem State.goto_status (a : Nat) : (s.goto a).status = s.status := rfl
@[simp] theorem State.goto_faultKind (a : Nat) : (s.goto a).faultKind = s.faultKind := rfl
@[simp] theorem State.goto_faultPc (a : Nat) : (s.goto a).faultPc = s.faultPc := rfl
@[simp] theorem State.goto_out (a : Nat) : (s.goto a).out = s.out := rfl

@[simp] theorem State.pushWord_cfg (v : Word) : (s.pushWord v).cfg = s.cfg := rfl
@[simp] theorem State.pushWord_imem (v : Word) : (s.pushWord v).imem = s.imem := rfl
@[simp] theorem State.pushWord_progLen (v : Word) : (s.pushWord v).progLen = s.progLen := rfl
@[simp] theorem State.pushWord_ip (v : Word) : (s.pushWord v).ip = s.ip := rfl
@[simp] theorem State.pushWord_stack (v : Word) : (s.pushWord v).stack = s.stack.write s.sp v := rfl
@[simp] theorem State.pushWord_sp (v : Word) : (s.pushWord v).sp = s.sp + 1 := rfl
@[simp] theorem State.pushWord_regs (v : Word) : (s.pushWord v).regs = s.regs := rfl
@[simp] theorem State.pushWord_status (v : Word) : (s.pushWord v).status = s.status := rfl
@[simp] theorem State.pushWord_faultKind (v : Word) : (s.pushWord v).faultKind = s.faultKind := rfl
@[simp] theorem State.pushWord_faultPc (v : Word) : (s.pushWord v).faultPc = s.faultPc := rfl
@[simp] theorem State.pushWord_out (v : Word) : (s.pushWord v).out = s.out := rfl

@[simp] theorem State.dropTop_cfg : (s.dropTop).cfg = s.cfg := rfl
@[simp] theorem State.dropTop_imem : (s.dropTop).imem = s.imem := rfl
@[simp] theorem State.dropTop_progLen : (s.dropTop).progLen = s.progLen := rfl
@[simp] theorem State.dropTop_ip : (s.dropTop).ip = s.ip := rfl
@[simp] theorem State.dropTop_stack : (s.dropTop).stack = s.stack := rfl
@[simp] theorem State.dropTop_sp : (s.dropTop).sp = s.sp - 1 := rfl
@[simp] theorem State.dropTop_regs : (s.dropTop).regs = s.regs := rfl
@[simp] theorem State.dropTop_status : (s.dropTop).status = s.status := rfl
@[simp] theorem State.dropTop_faultKind : (s.dropTop).faultKind = s.faultKind := rfl
@[simp] theorem State.dropTop_faultPc : (s.dropTop).faultPc = s.faultPc := rfl
@[simp] theorem State.dropTop_out : (s.dropTop).out = s.out := rfl

@[simp] theorem State.replaceTopTwo_cfg (v : Word) : (s.replaceTopTwo v).cfg = s.cfg := rfl
@[simp] theorem State.replaceTopTwo_imem (v : Word) : (s.replaceTopTwo v).imem = s.imem := rfl
@[simp] theorem State.replaceTopTwo_progLen (v : Word) : (s.replaceTopTwo v).progLen = s.progLen := rfl
@[simp] theorem State.replaceTopTwo_ip (v : Word) : (s.replaceTopTwo v).ip = s.ip := rfl
@[simp] theorem State.replaceTopTwo_stack (v : Word) : (s.replaceTopTwo v).stack = s.stack.write (s.sp - 2) v := rfl
@[simp] theorem State.replaceTopTwo_sp (v : Word) : (s.replaceTopTwo v).sp = s.sp - 1 := rfl
@[simp] theorem State.replaceTopTwo_regs (v : Word) : (s.replaceTopTwo v).regs = s.regs := rfl
@[simp] theorem State.replaceTopTwo_status (v : Word) : (s.replaceTopTwo v).status = s.status := rfl
@[simp] theorem State.replaceTopTwo_faultKind (v : Word) : (s.replaceTopTwo v).faultKind = s.faultKind := rfl
@[simp] theorem State.replaceTopTwo_faultPc (v : Word) : (s.replaceTopTwo v).faultPc = s.faultPc := rfl
@[simp] theorem State.replaceTopTwo_out (v : Word) : (s.replaceTopTwo v).out = s.out := rfl

@[simp] theorem State.setReg_cfg (r : Nat) (v : Word) : (s.setReg r v).cfg = s.cfg := rfl
@[simp] theorem State.setReg_imem (r : Nat) (v : Word) : (s.setReg r v).imem = s.imem := rfl
@[simp] theorem State.setReg_progLen (r : Nat) (v : Word) : (s.setReg r v).progLen = s.progLen := rfl
@[simp] theorem State.setReg_ip (r : Nat) (v : Word) : (s.setReg r v).ip = s.ip := rfl
@[simp] theorem State.setReg_stack (r : Nat) (v : Word) : (s.setReg r v).stack = s.stack := rfl
@[simp] theorem State.setReg_sp (r : Nat) (v : Word) : (s.setReg r v).sp = s.sp := rfl
@[simp] theorem State.setReg_regs (r : Nat) (v : Word) : (s.setReg r v).regs = s.regs.write r v := rfl
@[simp] theorem State.setReg_status (r : Nat) (v : Word) : (s.setReg r v).status = s.status := rfl
@[simp] theorem State.setReg_faultKind (r : Nat) (v : Word) : (s.setReg r v).faultKind = s.faultKind := rfl
@[simp] theorem State.setReg_faultPc (r : Nat) (v : Word) : (s.setReg r v).faultPc = s.faultPc := rfl
@[simp] theorem State.setReg_out (r : Nat) (v : Word) : (s.setReg r v).out = s.out := rfl

@[simp] theorem State.emit_cfg (v : Word) : (s.emit v).cfg = s.cfg := rfl
@[simp] theorem State.emit_imem (v : Word) : (s.emit v).imem = s.imem := rfl
@[simp] theorem State.emit_progLen (v : Word) : (s.emit v).progLen = s.progLen := rfl
@[simp] theorem State.emit_ip (v : Word) : (s.emit v).ip = s.ip := rfl
@[simp] theorem State.emit_stack (v : Word) : (s.emit v).stack = s.stack := rfl
@[simp] theorem State.emit_sp (v : Word) : (s.emit v).sp = s.sp := rfl
@[simp] theorem State.emit_regs (v : Word) : (s.emit v).regs = s.regs := rfl
@[simp] theorem State.emit_status (v : Word) : (s.emit v).status = s.status := rfl
@[simp] theorem State.emit_faultKind (v : Word) : (s.emit v).faultKind = s.faultKind := rfl
@[simp] theorem State.emit_faultPc (v : Word) : (s.emit v).faultPc = s.faultPc := rfl
@[simp] theorem State.emit_out (v : Word) : (s.emit v).out = s.out ++ [v] := rfl

@[simp] theorem State.halt_cfg : (s.halt).cfg = s.cfg := rfl
@[simp] theorem State.halt_imem : (s.halt).imem = s.imem := rfl
@[simp] theorem State.halt_progLen : (s.halt).progLen = s.progLen := rfl
@[simp] theorem State.halt_ip : (s.halt).ip = s.ip := rfl
@[simp] theorem State.halt_stack : (s.halt).stack = s.stack := rfl
@[simp] theorem State.halt_sp : (s.halt).sp = s.sp := rfl
@[simp] theorem State.halt_regs : (s.halt).regs = s.regs := rfl
@[simp] theorem State.halt_status : (s.halt).status = .halted := rfl
@[simp] theorem State.halt_faultKind : (s.halt).faultKind = s.faultKind := rfl
@[simp] theorem State.halt_faultPc : (s.halt).faultPc = s.faultPc := rfl
@[simp] theorem State.halt_out : (s.halt).out = s.out := rfl

@[simp] theorem State.raise_cfg (k : FaultKind) : (s.raise k).cfg = s.cfg := rfl
@[simp] theorem State.raise_imem (k : FaultKind) : (s.raise k).imem = s.imem := rfl
@[simp] theorem State.raise_progLen (k : FaultKind) : (s.raise k).progLen = s.progLen := rfl
@[simp] theorem State.raise_ip (k : FaultKind) : (s.raise k).ip = s.ip := rfl
@[simp] theorem State.raise_stack (k : FaultKind) : (s.raise k).stack = s.stack := rfl
@[simp] theorem State.raise_sp (k : FaultKind) : (s.raise k).sp = s.sp := rfl
@[simp] theorem State.raise_regs (k : FaultKind) : (s.raise k).regs = s.regs := rfl
@[simp] theorem State.raise_status (k : FaultKind) : (s.raise k).status = .faulted := rfl
@[simp] theorem State.raise_faultKind (k : FaultKind) : (s.raise k).faultKind = some k := rfl
@[simp] theorem State.raise_faultPc (k : FaultKind) : (s.raise k).faultPc = s.ip := rfl
@[simp] theorem State.raise_out (k : FaultKind) : (s.raise k).out = s.out := rfl

@[simp] theorem State.loadByte_cfg (a : Nat) (b : Byte) : (s.loadByte a b).cfg = s.cfg := rfl
@[simp] theorem State.loadByte_imem (a : Nat) (b : Byte) : (s.loadByte a b).imem = s.imem.write a b := rfl
@[simp] theorem State.loadByte_progLen (a : Nat) (b : Byte) : (s.loadByte a b).progLen = s.progLen := rfl
@[simp] theorem State.loadByte_ip (a : Nat) (b : Byte) : (s.loadByte a b).ip = s.ip := rfl
@[simp] theorem State.loadByte_stack (a : Nat) (b : Byte) : (s.loadByte a b).stack = s.stack := rfl
@[simp] theorem State.loadByte_sp (a : Nat) (b : Byte) : (s.loadByte a b).sp = s.sp := rfl
@[simp] theorem State.loadByte_regs (a : Nat) (b : Byte) : (s.loadByte a b).regs = s.regs := rfl
@[simp] theorem State.loadByte_status (a : Nat) (b : Byte) : (s.loadByte a b).status = s.status := rfl
@[simp] theorem State.loadByte_faultKind (a : Nat) (b : Byte) : (s.loadByte a b).faultKind = s.faultKind := rfl
@[simp] theorem State.loadByte_faultPc (a : Nat) (b : Byte) : (s.loadByte a b).faultPc = s.faultPc := rfl
@[simp] theorem State.loadByte_out (a : Nat) (b : Byte) : (s.loadByte a b).out = s.out := rfl

@[simp] theorem State.setProgLen_cfg (n : Nat) : (s.setProgLen n).cfg = s.cfg := rfl
@[simp] theorem State.setProgLen_imem (n : Nat) : (s.setProgLen n).imem = s.imem := rfl
@[simp] theorem State.setProgLen_progLen (n : Nat) : (s.setProgLen n).progLen = n := rfl
@[simp] theorem State.setProgLen_ip (n : Nat) : (s.setProgLen n).ip = s.ip := rfl
@[simp] theorem State.setProgLen_stack (n : Nat) : (s.setProgLen n).stack = s.stack := rfl
@[simp] theorem State.setProgLen_sp (n : Nat) : (s.setProgLen n).sp = s.sp := rfl
@[simp] theorem State.setProgLen_regs (n : Nat) : (s.setProgLen n).regs = s.regs := rfl
@[simp] theorem State.setProgLen_status (n : Nat) : (s.setProgLen n).status = s.status := rfl
@[simp] theorem State.setProgLen_faultKind (n : Nat) : (s.setProgLen n).faultKind = s.faultKind := rfl
@[simp] theorem State.setProgLen_faultPc (n : Nat) : (s.setProgLen n).faultPc = s.faultPc := rfl
@[simp] theorem State.setProgLen_out (n : Nat) : (s.setProgLen n).out = s.out := rfl

/-! ### The readers -/

theorem State.entry_eq_read (i : Nat) : s.entry i = s.stack.read i := rfl

theorem State.reg_eq_read (r : Nat) : s.reg r = s.regs.read r := rfl

theorem State.top_eq_entry : s.top = s.entry (s.sp - 1) := rfl

theorem State.nextTop_eq_entry : s.nextTop = s.entry (s.sp - 2) := rfl

theorem State.imemByte?_of_lt {s : State} {a : Nat} (h : a < s.cfg.progCap) :
    s.imemByte? a = some (s.imem.read a) := if_pos h

theorem State.imemByte?_of_ge {s : State} {a : Nat} (h : s.cfg.progCap ≤ a) :
    s.imemByte? a = none := if_neg (Nat.not_lt.mpr h)

@[simp] theorem State.pushWord_entry (v : Word) (i : Nat) :
    (s.pushWord v).entry i = if i = s.sp then v else s.entry i := s.stack.read_write s.sp i v

@[simp] theorem State.replaceTopTwo_entry (v : Word) (i : Nat) :
    (s.replaceTopTwo v).entry i = if i = s.sp - 2 then v else s.entry i :=
  s.stack.read_write (s.sp - 2) i v

@[simp] theorem State.setReg_reg (r : Nat) (v : Word) (i : Nat) :
    (s.setReg r v).reg i = if i = r then v else s.reg i := s.regs.read_write r i v

@[simp] theorem State.goto_entry (a i : Nat) : (s.goto a).entry i = s.entry i := rfl
@[simp] theorem State.goto_reg (a r : Nat) : (s.goto a).reg r = s.reg r := rfl
@[simp] theorem State.goto_imemByte? (a i : Nat) : (s.goto a).imemByte? i = s.imemByte? i := rfl
@[simp] theorem State.dropTop_entry (i : Nat) : s.dropTop.entry i = s.entry i := rfl
@[simp] theorem State.dropTop_reg (r : Nat) : s.dropTop.reg r = s.reg r := rfl
@[simp] theorem State.dropTop_imemByte? (i : Nat) : s.dropTop.imemByte? i = s.imemByte? i := rfl
@[simp] theorem State.pushWord_reg (v : Word) (r : Nat) : (s.pushWord v).reg r = s.reg r := rfl
@[simp] theorem State.pushWord_imemByte? (v : Word) (i : Nat) :
    (s.pushWord v).imemByte? i = s.imemByte? i := rfl
@[simp] theorem State.replaceTopTwo_reg (v : Word) (r : Nat) :
    (s.replaceTopTwo v).reg r = s.reg r := rfl
@[simp] theorem State.replaceTopTwo_imemByte? (v : Word) (i : Nat) :
    (s.replaceTopTwo v).imemByte? i = s.imemByte? i := rfl
@[simp] theorem State.setReg_entry (r : Nat) (v : Word) (i : Nat) :
    (s.setReg r v).entry i = s.entry i := rfl
@[simp] theorem State.setReg_imemByte? (r : Nat) (v : Word) (i : Nat) :
    (s.setReg r v).imemByte? i = s.imemByte? i := rfl
@[simp] theorem State.emit_entry (v : Word) (i : Nat) : (s.emit v).entry i = s.entry i := rfl
@[simp] theorem State.emit_reg (v : Word) (r : Nat) : (s.emit v).reg r = s.reg r := rfl
@[simp] theorem State.emit_imemByte? (v : Word) (i : Nat) :
    (s.emit v).imemByte? i = s.imemByte? i := rfl
@[simp] theorem State.halt_entry (i : Nat) : s.halt.entry i = s.entry i := rfl
@[simp] theorem State.halt_reg (r : Nat) : s.halt.reg r = s.reg r := rfl
@[simp] theorem State.halt_imemByte? (i : Nat) : s.halt.imemByte? i = s.imemByte? i := rfl
@[simp] theorem State.raise_entry (k : FaultKind) (i : Nat) :
    (s.raise k).entry i = s.entry i := rfl
@[simp] theorem State.raise_reg (k : FaultKind) (r : Nat) : (s.raise k).reg r = s.reg r := rfl
@[simp] theorem State.raise_imemByte? (k : FaultKind) (i : Nat) :
    (s.raise k).imemByte? i = s.imemByte? i := rfl
@[simp] theorem State.loadByte_entry (a : Nat) (b : Byte) (i : Nat) :
    (s.loadByte a b).entry i = s.entry i := rfl
@[simp] theorem State.loadByte_reg (a : Nat) (b : Byte) (r : Nat) :
    (s.loadByte a b).reg r = s.reg r := rfl
@[simp] theorem State.setProgLen_imemByte? (n i : Nat) :
    (s.setProgLen n).imemByte? i = s.imemByte? i := rfl

@[simp] theorem State.nextIp_eq (op : Opcode) : s.nextIp op = s.ip + op.length := rfl

end Sys2Proof.Machine
end

