-- ==== Sys2Proof/Laws/Ops.lean ====
section
/-! SUPPORT. One lemma per shared operation that says everything it can do, for the provers to cite in place of unfolding it. -/

namespace Sys2Proof.Machine

/-! ### The two outcomes of each check -/

theorem pushThen_full {s : State} (h : s.sp = s.cfg.stackCap) (v : Word) (n : Nat) :
    pushThen v n s = .next (s.raise .stackOverflow) := if_pos h

theorem pushThen_room {s : State} (h : s.sp ≠ s.cfg.stackCap) (v : Word) (n : Nat) :
    pushThen v n s = .next ((s.pushWord v).goto n) := if_neg h

/-- Everything a checked push can do. -/
theorem pushThen_cases {v : Word} {n : Nat} {s t : State} (h : pushThen v n s = .next t) :
    (s.sp = s.cfg.stackCap ∧ t = s.raise .stackOverflow) ∨
    (s.sp ≠ s.cfg.stackCap ∧ t = (s.pushWord v).goto n) := by
  unfold pushThen at h
  split at h
  · next hc => exact .inl ⟨hc, (Host.Outcome.next.inj h).symm⟩
  · next hc => exact .inr ⟨hc, (Host.Outcome.next.inj h).symm⟩

theorem withTop_empty {s : State} (h : s.sp = 0) (k : Word → Result) :
    withTop s k = .next (s.raise .stackUnderflow) := if_pos h

theorem withTop_live {s : State} (h : s.sp ≠ 0) (k : Word → Result) :
    withTop s k = k s.top := if_neg h

/-- Everything an operation on the top of stack can do. -/
theorem withTop_cases {s : State} {k : Word → Result} {o : Result} (h : withTop s k = o) :
    (s.sp = 0 ∧ o = .next (s.raise .stackUnderflow)) ∨ (s.sp ≠ 0 ∧ k s.top = o) := by
  unfold withTop at h
  split at h
  · next hc => exact .inl ⟨hc, h.symm⟩
  · next hc => exact .inr ⟨hc, h⟩

theorem withTopTwo_few {s : State} (h : s.sp < 2) (k : Word → Word → Result) :
    withTopTwo s k = .next (s.raise .stackUnderflow) := if_pos h

theorem withTopTwo_live {s : State} (h : 2 ≤ s.sp) (k : Word → Word → Result) :
    withTopTwo s k = k s.nextTop s.top := if_neg (Nat.not_lt.mpr h)

/-- Everything an operation on the top two entries can do. -/
theorem withTopTwo_cases {s : State} {k : Word → Word → Result} {o : Result}
    (h : withTopTwo s k = o) :
    (s.sp < 2 ∧ o = .next (s.raise .stackUnderflow)) ∨ (2 ≤ s.sp ∧ k s.nextTop s.top = o) := by
  unfold withTopTwo at h
  split at h
  · next hc => exact .inl ⟨hc, h.symm⟩
  · next hc => exact .inr ⟨Nat.not_lt.mp hc, h⟩

theorem withRegister_valid {r : Int} {s : State} (h : 0 ≤ r ∧ r < s.cfg.regCount)
    (k : Nat → Result) : withRegister r s k = k r.toNat := by
  simp [withRegister, State.regIndex?, h]

theorem withRegister_invalid {r : Int} {s : State} (h : ¬(0 ≤ r ∧ r < s.cfg.regCount))
    (k : Nat → Result) : withRegister r s k = .next (s.raise .invalidRegister) := by
  simp only [withRegister, State.regIndex?, if_neg h]

/-- Everything an operation on a register index can do. -/
theorem withRegister_cases {r : Int} {s : State} {k : Nat → Result} {o : Result}
    (h : withRegister r s k = o) :
    (¬(0 ≤ r ∧ r < s.cfg.regCount) ∧ o = .next (s.raise .invalidRegister)) ∨
    ((0 ≤ r ∧ r < s.cfg.regCount) ∧ k r.toNat = o) := by
  by_cases hc : 0 ≤ r ∧ r < s.cfg.regCount
  · exact .inr ⟨hc, (withRegister_valid hc k).symm.trans h⟩
  · exact .inl ⟨hc, h.symm.trans (withRegister_invalid hc k)⟩

theorem withTarget_valid {t : Int} {s : State} (h : 0 ≤ t ∧ t < s.progLen)
    (k : Nat → Result) : withTarget t s k = k t.toNat := by
  simp [withTarget, State.jumpTarget?, h]

theorem withTarget_invalid {t : Int} {s : State} (h : ¬(0 ≤ t ∧ t < s.progLen))
    (k : Nat → Result) : withTarget t s k = .next (s.raise .invalidJumpTarget) := by
  simp only [withTarget, State.jumpTarget?, if_neg h]

/-- Everything a jump to a target can do. -/
theorem withTarget_cases {t : Int} {s : State} {k : Nat → Result} {o : Result}
    (h : withTarget t s k = o) :
    (¬(0 ≤ t ∧ t < s.progLen) ∧ o = .next (s.raise .invalidJumpTarget)) ∨
    ((0 ≤ t ∧ t < s.progLen) ∧ k t.toNat = o) := by
  by_cases hc : 0 ≤ t ∧ t < s.progLen
  · exact .inr ⟨hc, (withTarget_valid hc k).symm.trans h⟩
  · exact .inl ⟨hc, h.symm.trans (withTarget_invalid hc k)⟩

theorem isZero_iff (c : Word) : isZero c = true ↔ c.toInt = 0 := by
  rw [isZero, beq_iff_eq, ← BitVec.toInt_inj]
  simp

end Sys2Proof.Machine
end

