-- ==== Sys2Proof/Laws/Exec.lean ====
section
/-! SUPPORT. What one instruction can do: every next state of `exec` is one of nine shapes over the named updates. Later proofs
about all instructions start from this list. -/

namespace Sys2Proof.Machine

/-- The fault an instruction raises in a state, if any, in the order of 60_exceptions.md R89. -/
def ownFault? : Instr → State → Option FaultKind
  | .nop, _ => none
  | .push _, s => if s.sp = s.cfg.stackCap then some .stackOverflow else none
  | .pop, s => if s.sp = 0 then some .stackUnderflow else none
  | .load r, s =>
    if 0 ≤ r ∧ r < s.cfg.regCount then
      if s.sp = s.cfg.stackCap then some .stackOverflow else none
    else some .invalidRegister
  | .store r, s =>
    if 0 ≤ r ∧ r < s.cfg.regCount then
      if s.sp = 0 then some .stackUnderflow else none
    else some .invalidRegister
  | .jmp t, s => if 0 ≤ t ∧ t < s.progLen then none else some .invalidJumpTarget
  | .jz t, s =>
    if s.sp = 0 then some .stackUnderflow
    else if isZero s.top = true ∧ ¬(0 ≤ t ∧ t < s.progLen) then some .invalidJumpTarget else none
  | .jnz t, s =>
    if s.sp = 0 then some .stackUnderflow
    else if isZero s.top = false ∧ ¬(0 ≤ t ∧ t < s.progLen) then some .invalidJumpTarget else none
  | .add, s => if s.sp < 2 then some .stackUnderflow else none
  | .sub, s => if s.sp < 2 then some .stackUnderflow else none
  | .mul, s => if s.sp < 2 then some .stackUnderflow else none
  | .div, s =>
    if s.sp < 2 then some .stackUnderflow else if s.top = 0 then some .divisionByZero else none
  | .print, s => if s.sp = 0 then some .stackUnderflow else none
  | .stop, _ => none

/-- The shapes of a next state: which instruction, under which conditions, and the state it leaves. -/
inductive Effect : Instr → State → State → Prop where
  /-- A fault of the instruction's own. -/
  | raises {i : Instr} {s : State} (k : FaultKind) (hk : ownFault? i s = some k) :
      Effect i s (s.raise k)
  /-- NOP. -/
  | nop {s : State} : Effect .nop s (s.goto (s.nextIp .nop))
  /-- PUSH with room on the stack. -/
  | push {s : State} (v : Int) (h : s.sp ≠ s.cfg.stackCap) :
      Effect (.push v) s ((s.pushWord (immediate v)).goto (s.nextIp .push))
  /-- POP of a live entry. -/
  | pop {s : State} (h : s.sp ≠ 0) : Effect .pop s (s.dropTop.goto (s.nextIp .pop))
  /-- LOAD of a valid register with room on the stack. -/
  | load {s : State} (r : Int) (hr : 0 ≤ r ∧ r < s.cfg.regCount) (h : s.sp ≠ s.cfg.stackCap) :
      Effect (.load r) s ((s.pushWord (s.reg r.toNat)).goto (s.nextIp .load))
  /-- STORE of a live entry to a valid register. -/
  | store {s : State} (r : Int) (hr : 0 ≤ r ∧ r < s.cfg.regCount) (h : s.sp ≠ 0) :
      Effect (.store r) s (((s.setReg r.toNat s.top).dropTop).goto (s.nextIp .store))
  /-- JMP to a valid target. -/
  | jmp {s : State} (t : Int) (ht : 0 ≤ t ∧ t < s.progLen) : Effect (.jmp t) s (s.goto t.toNat)
  /-- JZ or JNZ taken to a valid target. -/
  | taken {s : State} (i : Instr) (t : Int)
      (hi : (i = .jz t ∧ isZero s.top = true) ∨ (i = .jnz t ∧ isZero s.top = false))
      (ht : 0 ≤ t ∧ t < s.progLen) (h : s.sp ≠ 0) : Effect i s (s.dropTop.goto t.toNat)
  /-- JZ or JNZ not taken. -/
  | notTaken {s : State} (i : Instr) (t : Int)
      (hi : (i = .jz t ∧ isZero s.top = false) ∨ (i = .jnz t ∧ isZero s.top = true))
      (h : s.sp ≠ 0) : Effect i s (s.dropTop.goto (s.nextIp i.opcode))
  /-- ADD, SUB, MUL, or DIV by a divisor other than 0. -/
  | binary {s : State} (i : Instr) (v : Word)
      (hi : (i = .add ∧ v = addWord s.nextTop s.top) ∨ (i = .sub ∧ v = subWord s.nextTop s.top) ∨
        (i = .mul ∧ v = mulWord s.nextTop s.top) ∨
        (i = .div ∧ v = divWord s.nextTop s.top ∧ s.top ≠ 0))
      (h : 2 ≤ s.sp) : Effect i s ((s.replaceTopTwo v).goto (s.nextIp i.opcode))
  /-- PRINT of a live entry. -/
  | print {s : State} (h : s.sp ≠ 0) :
      Effect .print s (((s.emit s.top).dropTop).goto (s.nextIp .print))
  /-- STOP. -/
  | stop {s : State} : Effect .stop s ((s.goto (s.nextIp .stop)).halt)

/-! ### Each instruction on each of its paths -/

section paths

variable {s : State}

theorem exec_nop : exec .nop s = .next (s.goto (s.nextIp .nop)) := rfl

theorem exec_push_full (v : Int) (h : s.sp = s.cfg.stackCap) :
    exec (.push v) s = .next (s.raise .stackOverflow) := by
  simp only [exec, execPush, pushThen_full h]

theorem exec_push_room (v : Int) (h : s.sp ≠ s.cfg.stackCap) :
    exec (.push v) s = .next ((s.pushWord (immediate v)).goto (s.nextIp .push)) := by
  simp only [exec, execPush, pushThen_room h]

theorem exec_pop_empty (h : s.sp = 0) : exec .pop s = .next (s.raise .stackUnderflow) := by
  simp only [exec, execPop, withTop_empty h]

theorem exec_pop_live (h : s.sp ≠ 0) : exec .pop s = .next (s.dropTop.goto (s.nextIp .pop)) := by
  simp only [exec, execPop, withTop_live h]

theorem exec_load_invalid {r : Int} (h : ¬(0 ≤ r ∧ r < s.cfg.regCount)) :
    exec (.load r) s = .next (s.raise .invalidRegister) := by
  simp only [exec, execLoad, withRegister_invalid h]

theorem exec_load_full {r : Int} (hr : 0 ≤ r ∧ r < s.cfg.regCount) (h : s.sp = s.cfg.stackCap) :
    exec (.load r) s = .next (s.raise .stackOverflow) := by
  simp only [exec, execLoad, withRegister_valid hr, pushThen_full h]

theorem exec_load_room {r : Int} (hr : 0 ≤ r ∧ r < s.cfg.regCount) (h : s.sp ≠ s.cfg.stackCap) :
    exec (.load r) s = .next ((s.pushWord (s.reg r.toNat)).goto (s.nextIp .load)) := by
  simp only [exec, execLoad, withRegister_valid hr, pushThen_room h]

theorem exec_store_invalid {r : Int} (h : ¬(0 ≤ r ∧ r < s.cfg.regCount)) :
    exec (.store r) s = .next (s.raise .invalidRegister) := by
  simp only [exec, execStore, withRegister_invalid h]

theorem exec_store_empty {r : Int} (hr : 0 ≤ r ∧ r < s.cfg.regCount) (h : s.sp = 0) :
    exec (.store r) s = .next (s.raise .stackUnderflow) := by
  simp only [exec, execStore, withRegister_valid hr, withTop_empty h]

theorem exec_store_live {r : Int} (hr : 0 ≤ r ∧ r < s.cfg.regCount) (h : s.sp ≠ 0) :
    exec (.store r) s =
      .next (((s.setReg r.toNat s.top).dropTop).goto (s.nextIp .store)) := by
  simp only [exec, execStore, withRegister_valid hr, withTop_live h]

theorem exec_jmp_invalid {t : Int} (h : ¬(0 ≤ t ∧ t < s.progLen)) :
    exec (.jmp t) s = .next (s.raise .invalidJumpTarget) := by
  simp only [exec, execJmp, withTarget_invalid h]

theorem exec_jmp_valid {t : Int} (h : 0 ≤ t ∧ t < s.progLen) :
    exec (.jmp t) s = .next (s.goto t.toNat) := by
  simp only [exec, execJmp, withTarget_valid h]

theorem popBranch_empty {f : Word → Bool} {t : Int} {n : Nat} (h : s.sp = 0) :
    popBranch f t n s = .next (s.raise .stackUnderflow) := by
  simp only [popBranch, withTop_empty h]

theorem popBranch_notTaken {f : Word → Bool} {t : Int} {n : Nat} (h : s.sp ≠ 0)
    (hf : f s.top = false) : popBranch f t n s = .next (s.dropTop.goto n) := by
  simp [popBranch, withTop_live h, hf]

theorem popBranch_invalid {f : Word → Bool} {t : Int} {n : Nat} (h : s.sp ≠ 0)
    (hf : f s.top = true) (ht : ¬(0 ≤ t ∧ t < s.progLen)) :
    popBranch f t n s = .next (s.raise .invalidJumpTarget) := by
  simp only [popBranch, withTop_live h, hf, if_true, withTarget_invalid ht]

theorem popBranch_taken {f : Word → Bool} {t : Int} {n : Nat} (h : s.sp ≠ 0)
    (hf : f s.top = true) (ht : 0 ≤ t ∧ t < s.progLen) :
    popBranch f t n s = .next (s.dropTop.goto t.toNat) := by
  simp only [popBranch, withTop_live h, hf, if_true, withTarget_valid ht]

theorem exec_jz_eq (t : Int) : exec (.jz t) s = popBranch isZero t (s.nextIp .jz) s := rfl

theorem exec_jnz_eq (t : Int) :
    exec (.jnz t) s = popBranch (fun c => !isZero c) t (s.nextIp .jnz) s := rfl

theorem binaryOp_few {f : Word → Word → Word} {n : Nat} (h : s.sp < 2) :
    binaryOp f n s = .next (s.raise .stackUnderflow) := by
  simp only [binaryOp, withTopTwo_few h]

theorem binaryOp_live {f : Word → Word → Word} {n : Nat} (h : 2 ≤ s.sp) :
    binaryOp f n s = .next ((s.replaceTopTwo (f s.nextTop s.top)).goto n) := by
  simp only [binaryOp, withTopTwo_live h]

theorem exec_add_eq : exec .add s = binaryOp addWord (s.nextIp .add) s := rfl

theorem exec_sub_eq : exec .sub s = binaryOp subWord (s.nextIp .sub) s := rfl

theorem exec_mul_eq : exec .mul s = binaryOp mulWord (s.nextIp .mul) s := rfl

theorem exec_div_few (h : s.sp < 2) : exec .div s = .next (s.raise .stackUnderflow) := by
  simp only [exec, execDiv, withTopTwo_few h]

theorem exec_div_zero (h : 2 ≤ s.sp) (hb : s.top = 0) :
    exec .div s = .next (s.raise .divisionByZero) := by
  simp only [exec, execDiv, withTopTwo_live h, if_pos hb]

theorem exec_div_live (h : 2 ≤ s.sp) (hb : s.top ≠ 0) :
    exec .div s =
      .next ((s.replaceTopTwo (divWord s.nextTop s.top)).goto (s.nextIp .div)) := by
  simp only [exec, execDiv, withTopTwo_live h, if_neg hb]

theorem exec_print_empty (h : s.sp = 0) : exec .print s = .next (s.raise .stackUnderflow) := by
  simp only [exec, execPrint, withTop_empty h]

theorem exec_print_live (h : s.sp ≠ 0) :
    exec .print s = .next (((s.emit s.top).dropTop).goto (s.nextIp .print)) := by
  simp only [exec, execPrint, withTop_live h]

theorem exec_stop : exec .stop s = .next ((s.goto (s.nextIp .stop)).halt) := rfl

end paths

/-! ### All instructions at once -/

/-- Every instruction in every state has a next state, and it is one of the shapes. -/
theorem exec_effect (i : Instr) (s : State) : ∃ t, exec i s = .next t ∧ Effect i s t := by
  cases i with
  | nop => exact ⟨_, exec_nop, .nop⟩
  | push v =>
    by_cases h : s.sp = s.cfg.stackCap
    · exact ⟨_, exec_push_full v h, .raises _ (by simp [ownFault?, *])⟩
    · exact ⟨_, exec_push_room v h, .push v h⟩
  | pop =>
    by_cases h : s.sp = 0
    · exact ⟨_, exec_pop_empty h, .raises _ (by simp [ownFault?, *])⟩
    · exact ⟨_, exec_pop_live h, .pop h⟩
  | load r =>
    by_cases hr : 0 ≤ r ∧ r < s.cfg.regCount
    · by_cases h : s.sp = s.cfg.stackCap
      · exact ⟨_, exec_load_full hr h, .raises _ (by simp [ownFault?, *])⟩
      · exact ⟨_, exec_load_room hr h, .load r hr h⟩
    · exact ⟨_, exec_load_invalid hr, .raises _ (by simp [ownFault?, *])⟩
  | store r =>
    by_cases hr : 0 ≤ r ∧ r < s.cfg.regCount
    · by_cases h : s.sp = 0
      · exact ⟨_, exec_store_empty hr h, .raises _ (by simp [ownFault?, *])⟩
      · exact ⟨_, exec_store_live hr h, .store r hr h⟩
    · exact ⟨_, exec_store_invalid hr, .raises _ (by simp [ownFault?, *])⟩
  | jmp t =>
    by_cases ht : 0 ≤ t ∧ t < s.progLen
    · exact ⟨_, exec_jmp_valid ht, .jmp t ht⟩
    · exact ⟨_, exec_jmp_invalid ht, .raises _ (by simp [ownFault?, *])⟩
  | jz t =>
    by_cases h : s.sp = 0
    · exact ⟨_, popBranch_empty h, .raises _ (by simp [ownFault?, *])⟩
    · cases hz : isZero s.top with
      | true =>
        by_cases ht : 0 ≤ t ∧ t < s.progLen
        · exact ⟨_, popBranch_taken h hz ht, .taken _ t (.inl ⟨rfl, hz⟩) ht h⟩
        · exact ⟨_, popBranch_invalid h hz ht, .raises _ (by simp [ownFault?, *])⟩
      | false => exact ⟨_, popBranch_notTaken h hz, .notTaken _ t (.inl ⟨rfl, hz⟩) h⟩
  | jnz t =>
    by_cases h : s.sp = 0
    · exact ⟨_, (exec_jnz_eq t).trans (popBranch_empty h), .raises _ (by simp [ownFault?, *])⟩
    · cases hz : isZero s.top with
      | false =>
        by_cases ht : 0 ≤ t ∧ t < s.progLen
        · exact ⟨_, (exec_jnz_eq t).trans (popBranch_taken h (by simp [hz]) ht), .taken _ t (.inr ⟨rfl, hz⟩) ht h⟩
        · exact ⟨_, (exec_jnz_eq t).trans (popBranch_invalid h (by simp [hz]) ht), .raises _ (by simp [ownFault?, *])⟩
      | true => exact ⟨_, (exec_jnz_eq t).trans (popBranch_notTaken h (by simp [hz])), .notTaken _ t (.inr ⟨rfl, hz⟩) h⟩
  | add =>
    by_cases h : s.sp < 2
    · exact ⟨_, binaryOp_few h, .raises _ (by simp [ownFault?, *])⟩
    · exact ⟨_, binaryOp_live (Nat.not_lt.mp h), .binary .add _ (.inl ⟨rfl, rfl⟩) (Nat.not_lt.mp h)⟩
  | sub =>
    by_cases h : s.sp < 2
    · exact ⟨_, binaryOp_few h, .raises _ (by simp [ownFault?, *])⟩
    · exact ⟨_, binaryOp_live (Nat.not_lt.mp h),
        .binary .sub _ (.inr (.inl ⟨rfl, rfl⟩)) (Nat.not_lt.mp h)⟩
  | mul =>
    by_cases h : s.sp < 2
    · exact ⟨_, binaryOp_few h, .raises _ (by simp [ownFault?, *])⟩
    · exact ⟨_, binaryOp_live (Nat.not_lt.mp h),
        .binary .mul _ (.inr (.inr (.inl ⟨rfl, rfl⟩))) (Nat.not_lt.mp h)⟩
  | div =>
    by_cases h : s.sp < 2
    · exact ⟨_, exec_div_few h, .raises _ (by simp [ownFault?, *])⟩
    · by_cases hb : s.top = 0
      · exact ⟨_, exec_div_zero (Nat.not_lt.mp h) hb, .raises _ (by simp [ownFault?, *])⟩
      · exact ⟨_, exec_div_live (Nat.not_lt.mp h) hb,
          .binary .div _ (.inr (.inr (.inr ⟨rfl, rfl, hb⟩))) (Nat.not_lt.mp h)⟩
  | print =>
    by_cases h : s.sp = 0
    · exact ⟨_, exec_print_empty h, .raises _ (by simp [ownFault?, *])⟩
    · exact ⟨_, exec_print_live h, .print h⟩
  | stop => exact ⟨_, exec_stop, .stop⟩

/-- An instruction that has a fault to raise raises it. -/
theorem exec_of_ownFault {i : Instr} {s : State} {k : FaultKind} (h : ownFault? i s = some k) :
    exec i s = .next (s.raise k) := by
  cases i <;>
    simp only [ownFault?, Option.ite_none_right_eq_some, Option.ite_none_left_eq_some,
      Option.some.injEq, reduceCtorEq] at h
  case push v => exact h.2 ▸ exec_push_full v h.1
  case pop => exact h.2 ▸ exec_pop_empty h.1
  case load r =>
    split at h
    · next hr =>
      simp only [Option.ite_none_right_eq_some, Option.some.injEq] at h
      exact h.2 ▸ exec_load_full hr h.1
    · next hr => exact (Option.some.inj h) ▸ exec_load_invalid hr
  case store r =>
    split at h
    · next hr =>
      simp only [Option.ite_none_right_eq_some, Option.some.injEq] at h
      exact h.2 ▸ exec_store_empty hr h.1
    · next hr => exact (Option.some.inj h) ▸ exec_store_invalid hr
  case jmp t => exact h.2 ▸ exec_jmp_invalid h.1
  case jz t =>
    split at h
    · next hs => exact (Option.some.inj h) ▸ popBranch_empty hs
    · next hs =>
      simp only [Option.ite_none_right_eq_some, Option.some.injEq] at h
      exact h.2 ▸ popBranch_invalid hs h.1.1 h.1.2
  case jnz t =>
    split at h
    · next hs => exact (Option.some.inj h) ▸ (exec_jnz_eq t).trans (popBranch_empty hs)
    · next hs =>
      simp only [Option.ite_none_right_eq_some, Option.some.injEq] at h
      exact h.2 ▸ (exec_jnz_eq t).trans (popBranch_invalid hs (by simp [h.1.1]) h.1.2)
  case add => exact h.2 ▸ binaryOp_few h.1
  case sub => exact h.2 ▸ binaryOp_few h.1
  case mul => exact h.2 ▸ binaryOp_few h.1
  case div =>
    split at h
    · next hs => exact (Option.some.inj h) ▸ exec_div_few hs
    · next hs =>
      simp only [Option.ite_none_right_eq_some, Option.some.injEq] at h
      exact h.2 ▸ exec_div_zero (Nat.not_lt.mp hs) h.1
  case print => exact h.2 ▸ exec_print_empty h.1

/-- If an instruction answers `t`, then `t` is one of the shapes. -/
theorem exec_cases {i : Instr} {s t : State} (h : exec i s = .next t) : Effect i s t := by
  obtain ⟨t', h', he⟩ := exec_effect i s
  rw [h] at h'
  exact (Host.Outcome.next.inj h') ▸ he

/-- Everything a step can do. -/
theorem step_cases {s t : State} (h : step s = .next t) :
    s.status = .running ∧
      ((∃ i, fetch s = .ok i ∧ Effect i s t) ∨ (∃ k, fetch s = .error k ∧ t = s.raise k)) := by
  unfold step at h
  split at h
  · next hs =>
    split at h
    · next i hi => exact ⟨hs, .inl ⟨i, hi, exec_cases h⟩⟩
    · next k hk => exact ⟨hs, .inr ⟨k, hk, (Host.Outcome.next.inj h).symm⟩⟩
  · cases h
  · cases h

end Sys2Proof.Machine
end

