-- ==== Sys2Proof/Laws/Fetch.lean ====
section
/-! SUPPORT. The laws of the common fetch: what the window holds, and the step that each head of the window leads to. -/

namespace Sys2Proof.Machine

variable {s : State}

/-- What the fetch reads, byte by byte. -/
theorem State.fetchBytes_getElem? (s : State) (n a k : Nat) :
    (s.fetchBytes n a)[k]? = if k < n then s.imemByte? (a + k) else none := by
  induction n generalizing a k with
  | zero => simp [State.fetchBytes]
  | succ n ih =>
    by_cases ha : a < s.cfg.progCap
    · simp only [State.fetchBytes, State.imemByte?_of_lt ha]
      cases k with
      | zero => simp [State.imemByte?_of_lt ha]
      | succ k =>
        rw [List.getElem?_cons_succ, ih]
        simp only [Nat.succ_lt_succ_iff, show a + 1 + k = a + (k + 1) by omega]
    · have hnone : ∀ b, a ≤ b → s.imemByte? b = none := fun b hb =>
        State.imemByte?_of_ge ((Nat.not_lt.mp ha).trans hb)
      simp [State.fetchBytes, hnone a le_rfl, hnone (a + k) (Nat.le_add_right ..)]

/-- How many bytes the fetch reads: as many as exist, up to the number asked for. -/
theorem State.fetchBytes_length (s : State) (n a : Nat) :
    (s.fetchBytes n a).length = min n (s.cfg.progCap - a) := by
  induction n generalizing a with
  | zero => simp [State.fetchBytes]
  | succ n ih =>
    by_cases ha : a < s.cfg.progCap
    · simp only [State.fetchBytes, State.imemByte?_of_lt ha, List.length_cons, ih]
      omega
    · simp only [State.fetchBytes, State.imemByte?_of_ge (Nat.not_lt.mp ha), List.length_nil]
      omega

/-! ### Placing bytes -/

/-- Placing bytes changes the instruction store alone. -/
theorem State.placeBytes_eq (s : State) (a : Nat) (bs : List Byte) :
    s.placeBytes a bs = { s with imem := (s.placeBytes a bs).imem } := by
  induction bs generalizing s a with
  | nil => rfl
  | cons b bs ih =>
    unfold State.placeBytes
    split
    · rw [ih]
    · rfl

/-- Placing bytes keeps the instruction store's canonical form and its bound. -/
theorem State.placeBytes_wf {s : State} (h : Memory.wf s.imem) (hb : s.imem.below s.cfg.progCap)
    (a : Nat) (bs : List Byte) :
    Memory.wf (s.placeBytes a bs).imem ∧ (s.placeBytes a bs).imem.below s.cfg.progCap := by
  induction bs generalizing s a with
  | nil => exact ⟨h, hb⟩
  | cons b bs ih =>
    unfold State.placeBytes
    split
    · next ha =>
      exact ih (s := { s with imem := s.imem.write a b }) (Cells.write_wf h a b)
        (Cells.write_below hb b ha) (a + 1)
    · exact ⟨h, hb⟩

/-- So does placing an instruction for the next step. -/
theorem State.withFetchWord_wf {s : State} (h : Memory.wf s.imem)
    (hb : s.imem.below s.cfg.progCap) (nbits w : Nat) :
    Memory.wf (s.withFetchWord nbits w).imem ∧
      (s.withFetchWord nbits w).imem.below s.cfg.progCap :=
  State.placeBytes_wf h hb _ _

/-- The host's write of one byte keeps the canonical form. -/
theorem State.loadByte_wf {s : State} (h : Memory.wf s.imem) (a : Nat) (b : Byte) :
    Memory.wf (s.loadByte a b).imem := Cells.write_wf h a b

/-- The instruction store after reset is in canonical form. -/
theorem State.reset_imem_wf : Memory.wf State.reset.imem := Cells.nil_wf

/-! ### The step -/

/-- The step of a running block is its fetch, then the instruction or the fault. -/
theorem step_ok {i : Instr} (hs : s.status = .running) (h : fetch s = .ok i) :
    step s = exec i s := by simp only [step, hs, h]

theorem step_error {k : FaultKind} (hs : s.status = .running) (h : fetch s = .error k) :
    step s = .next (s.raise k) := by simp only [step, hs, h]

/-- At or past PROG_CAP the window is empty. -/
theorem fetch_past_end (h : s.cfg.progCap ≤ s.ip) : fetch s = .error .endOfProgram := by
  have hw : s.window = [] := by
    simp [State.window, maxInstrBytes, State.fetchBytes, State.imemByte?_of_ge h]
  simp only [fetch, hw, decode]

/-- Where there is an opcode byte, it is the window's head, and the bytes after it follow up to PROG_CAP. -/
theorem window_cons {b : Byte} (h : s.imemByte? s.ip = some b) :
    s.window = b :: s.fetchBytes 4 (s.ip + 1) := by
  simp only [State.window, maxInstrBytes, State.fetchBytes, h]

theorem ip_lt_of_byte {b : Byte} (h : s.imemByte? s.ip = some b) : s.ip < s.cfg.progCap := by
  by_contra hc
  simp [State.imemByte?_of_ge (Nat.not_lt.mp hc)] at h

theorem fetch_unknown {b : Byte} (h : s.imemByte? s.ip = some b)
    (ho : s.cfg.opcodes.opcode? b = none) : fetch s = .error .unknownOpcode := by
  simp only [fetch, window_cons h, decode, ho]

theorem width_le_four (op : Opcode) : op.width ≤ 4 := by cases op <;> decide

theorem fetch_truncated {b : Byte} {op : Opcode} (h : s.imemByte? s.ip = some b)
    (ho : s.cfg.opcodes.opcode? b = some op) (hl : s.cfg.progCap < s.ip + 1 + op.width) :
    fetch s = .error .endOfProgram := by
  have h4 := width_le_four op
  have hip := ip_lt_of_byte h
  have hlen := s.fetchBytes_length 4 (s.ip + 1)
  simp only [fetch, window_cons h, decode_cons ho]
  rw [if_pos (by omega)]

/-- Where opcode and operand lie below PROG_CAP, the fetch gives the instruction of the operand's bytes. -/
theorem fetch_whole {b : Byte} {op : Opcode} (h : s.imemByte? s.ip = some b)
    (ho : s.cfg.opcodes.opcode? b = some op) (hl : s.ip + 1 + op.width ≤ s.cfg.progCap) :
    fetch s = .ok (.ofOperand op
      (leInt ((List.range op.width).map (fun k => s.imem.read (s.ip + 1 + k))))) := by
  have h4 := width_le_four op
  have hlen := s.fetchBytes_length 4 (s.ip + 1)
  have htake : (s.fetchBytes 4 (s.ip + 1)).take op.width =
      (List.range op.width).map (fun k => s.imem.read (s.ip + 1 + k)) := by
    apply List.ext_getElem?
    intro k
    by_cases hk : k < op.width
    · have hb : s.ip + 1 + k < s.cfg.progCap := by omega
      simp [hk, State.fetchBytes_getElem?, show k < 4 by omega,
        State.imemByte?_of_lt hb]
    · simp [hk]
  simp only [fetch, window_cons h, decode_cons ho]
  rw [if_neg (by omega), htake]

/-- An instruction is fetched only where all its bytes exist. -/
theorem fetch_ok_bound {i : Instr} (h : fetch s = .ok i) :
    s.ip + i.opcode.length ≤ s.cfg.progCap := by
  unfold fetch at h
  split at h
  case h_1 j rest hd =>
    obtain ⟨b, op, tl, hw, ho, hl, hj, -⟩ := decode_instr hd
    cases h
    have hlen := s.fetchBytes_length maxInstrBytes s.ip
    have hwl : s.window.length = tl.length + 1 := by rw [hw]; rfl
    rw [State.window] at hwl
    rw [hj, opcode_ofOperand, Opcode.length]
    omega
  all_goals cases h

end Sys2Proof.Machine
end

