-- ==== Sys2Proof/Tests/Slice0.lean ====
section
/-! SUPPORT. Tests: expected results from the vectors of 95_test_vectors.md (named in each comment) and from the encodings of
30_encoding.md; then, for every statement with hypotheses, a state and operands that meet them. -/

namespace Sys2Proof.Tests

open Sys2Proof Sys2Proof.Machine Sys2Proof.Claims

/-! ### Small states and what is looked at -/

/-- Values written at the indices from `k` up. -/
def cellsFrom : Nat → List Int → Cells 32
  | _, [] => []
  | k, v :: vs => Cells.write (cellsFrom (k + 1) vs) k (BitVec.ofInt 32 v)

/-- Running at `ip` with program length `L`, the bytes at `ip`, and the live stack bottom to top. -/
def mk (ip L : Nat) (bytes : List Byte) (S : List Int) : State :=
  { (State.initial Config.default).placeBytes ip bytes with
    ip := ip, progLen := L, stack := cellsFrom 0 S, sp := S.length }

/-- The live stack, bottom to top. -/
def live (s : State) : List Int := (List.range s.sp).map (fun i => (s.entry i).toInt)

/-- The live stack, `ip` and status after one step. -/
def after (s : State) : Option (List Int × Nat × RunStatus) :=
  match step s with
  | .next t => some (live t, t.ip, t.status)
  | .fault _ => none
  | .refused _ => none

/-- The fault latched by one step, with `ip` and `sp`. -/
def faultAfter (s : State) : Option (FaultKind × Nat × Nat × Nat) :=
  match step s with
  | .next t => t.faultKind.map (fun k => (k, t.faultPc, t.ip, t.sp))
  | .fault _ => none
  | .refused _ => none

/-- PUSH -2 at 0 in a program of 64 bytes, two live entries. -/
def sPush : State := mk 0 64 [0x01, 0xFE, 0xFF, 0xFF, 0xFF] [7, 0]

/-! ### Well-formedness refuses operands outside their fields (R60) -/

theorem test_push_too_large : (Instr.push 2147483648).wf = false := by decide
theorem test_push_too_small : (Instr.push (-2147483649)).wf = false := by decide
theorem test_load_index_too_large : (Instr.load 128).wf = false := by decide
theorem test_store_index_too_small : (Instr.store (-129)).wf = false := by decide
theorem test_jmp_target_too_large : (Instr.jmp 32768).wf = false := by decide
theorem test_jz_target_too_small : (Instr.jz (-32769)).wf = false := by decide
theorem test_jnz_target_too_large : (Instr.jnz 32768).wf = false := by decide

/-! ### Each constructor's decoding, from the bytes the spec's encoding gives (R46-R49) -/

theorem test_decode_nop : decode OpcodeMap.standard [0x00] = .instr .nop [] := by decide
theorem test_decode_push :
    decode OpcodeMap.standard [0x01, 0xFE, 0xFF, 0xFF, 0xFF] = .instr (.push (-2)) [] := by decide
theorem test_decode_push_byte_order :
    decode OpcodeMap.standard [0x01, 0x78, 0x56, 0x34, 0x12] = .instr (.push 0x12345678) [] := by
  decide
theorem test_decode_pop : decode OpcodeMap.standard [0x02, 0x0C] = .instr .pop [0x0C] := by decide
theorem test_decode_load : decode OpcodeMap.standard [0x03, 0x63] = .instr (.load 99) [] := by
  decide
theorem test_decode_store : decode OpcodeMap.standard [0x04, 0x80] = .instr (.store (-128)) [] := by
  decide
theorem test_decode_jmp : decode OpcodeMap.standard [0x05, 0x0F, 0x00] = .instr (.jmp 15) [] := by
  decide
theorem test_decode_jz : decode OpcodeMap.standard [0x06, 0xFF, 0x7F] = .instr (.jz 32767) [] := by
  decide
theorem test_decode_jnz :
    decode OpcodeMap.standard [0x07, 0x00, 0x80] = .instr (.jnz (-32768)) [] := by decide
theorem test_decode_add : decode OpcodeMap.standard [0x08] = .instr .add [] := by decide
theorem test_decode_sub : decode OpcodeMap.standard [0x09] = .instr .sub [] := by decide
theorem test_decode_mul : decode OpcodeMap.standard [0x0A] = .instr .mul [] := by decide
theorem test_decode_div : decode OpcodeMap.standard [0x0B] = .instr .div [] := by decide
theorem test_decode_print : decode OpcodeMap.standard [0x0C] = .instr .print [] := by decide
theorem test_decode_stop : decode OpcodeMap.standard [0x0D] = .instr .stop [] := by decide
theorem test_decode_illegal : decode OpcodeMap.standard [0x0E, 0x00] = .unknownOpcode 0x0E := by
  decide
theorem test_decode_truncated : decode OpcodeMap.standard [0x01, 0x00] = .truncated .push := by
  decide
theorem test_decode_empty : decode OpcodeMap.standard [] = .noOpcode := by decide

/-- A table word without operand bits is an instruction with operand 0. -/
theorem test_table_word_push : decodeTableWord 8 0x01 = some (.push 0) := by decide

/-- The first step after reset runs the word placed for it: LOAD 0 pushes register 0. -/
theorem test_first_step_load : after (State.reset.withFetchWord 8 0x03) = some ([0], 2, .running) := by
  decide

/-- JMP 0 placed for the first step is in the program that placing it loads. -/
theorem test_first_step_jmp : after (State.reset.withFetchWord 8 0x05) = some ([], 0, .running) := by
  decide

/-! ### Fetch (vectors V3-V7) -/

theorem test_v3_unknown_at_last_byte :
    faultAfter (mk 1023 1024 [0x0E] []) = some (.unknownOpcode, 1023, 1023, 0) := by decide
theorem test_v5_operand_past_the_store :
    faultAfter (mk 1020 64 [0x01] []) = some (.endOfProgram, 1020, 1020, 0) := by decide
theorem test_v6_operand_ends_at_the_store :
    after (mk 1019 64 [0x01, 0x02, 0, 0, 0] []) = some ([2], 1024, .running) := by decide
theorem test_v7_opcode_past_the_store :
    faultAfter (mk 1024 64 [] []) = some (.endOfProgram, 1024, 1024, 0) := by decide

/-! ### Instructions -/

/-- V9. -/
theorem test_nop : after (mk 1023 64 [0x00] []) = some ([], 1024, .running) := by decide
/-- V11. -/
theorem test_push :
    after (mk 0 64 [0x01, 0, 0, 0, 0x80] [1]) = some ([1, -2147483648], 5, .running) := by decide
/-- V13. -/
theorem test_push_full :
    faultAfter { mk 0 64 [0x01, 1, 0, 0, 0] [] with sp := 255 } = some (.stackOverflow, 0, 0, 255) := by
  decide
/-- V15. -/
theorem test_pop : after (mk 0 64 [0x02] [1, 2, 3]) = some ([1, 2], 1, .running) := by decide
/-- V16. -/
theorem test_pop_empty : faultAfter (mk 0 64 [0x02] []) = some (.stackUnderflow, 0, 0, 0) := by decide
/-- V17. -/
theorem test_load :
    after { mk 0 64 [0x03, 0x05] [] with regs := [(5, 42)] } = some ([42], 2, .running) := by decide
/-- V23: the index is checked before the stack. -/
theorem test_load_priority :
    faultAfter { mk 0 64 [0x03, 0x63] [] with sp := 255 } = some (.invalidRegister, 0, 0, 255) := by
  decide
/-- V25. -/
theorem test_store :
    (match step { mk 0 64 [0x04, 0x03] [1, 2] with regs := [(3, 9)] } with
      | .next t => (live t, (t.reg 3).toInt, t.ip)
      | .fault _ => ([], 0, 0)
      | .refused _ => ([], 0, 0)) = ([1], 2, 2) := by decide
/-- V28. -/
theorem test_store_invalid :
    faultAfter (mk 0 64 [0x04, 0x7F] [5]) = some (.invalidRegister, 0, 0, 1) := by decide
/-- V30. -/
theorem test_jmp_last : after (mk 0 22 [0x05, 0x15, 0x00] []) = some ([], 21, .running) := by decide
/-- V31. -/
theorem test_jmp_length :
    faultAfter (mk 0 22 [0x05, 0x16, 0x00] []) = some (.invalidJumpTarget, 0, 0, 0) := by decide
/-- V37: no target check when not taken. -/
theorem test_jz_not_taken :
    after (mk 5 22 [0x06, 0xFF, 0x7F] [5]) = some ([], 8, .running) := by decide
/-- V38: a bad target takes back the pop. -/
theorem test_jz_invalid :
    faultAfter (mk 5 22 [0x06, 0xFF, 0x7F] [0]) = some (.invalidJumpTarget, 5, 5, 1) := by decide
/-- V44. -/
theorem test_jnz_negative :
    after (mk 33 40 [0x07, 0x0E, 0x00] [-2147483648]) = some ([], 14, .running) := by decide
/-- V46. -/
theorem test_jnz_zero : after (mk 33 40 [0x07, 0xFF, 0x7F] [0]) = some ([], 36, .running) := by
  decide
/-- V49. -/
theorem test_add_wraps :
    after (mk 0 64 [0x08] [2147483647, 1]) = some ([-2147483648], 1, .running) := by decide
/-- V52. -/
theorem test_add_one_entry : faultAfter (mk 0 64 [0x08] [5]) = some (.stackUnderflow, 0, 0, 1) := by
  decide
/-- V55: the entry pushed earlier minus the one pushed later. -/
theorem test_sub_order : after (mk 0 64 [0x09] [3, 10]) = some ([-7], 1, .running) := by decide
/-- V57. -/
theorem test_sub_wraps :
    after (mk 0 64 [0x09] [0, -2147483648]) = some ([-2147483648], 1, .running) := by decide
/-- V60. -/
theorem test_mul_wraps : after (mk 0 64 [0x0A] [2147483647, 2]) = some ([-2], 1, .running) := by
  decide
/-- V63. -/
theorem test_mul_sign : after (mk 0 64 [0x0A] [-3, 4]) = some ([-12], 1, .running) := by decide
/-- V66: toward zero. -/
theorem test_div_truncates : after (mk 0 64 [0x0B] [-7, 2]) = some ([-3], 1, .running) := by decide
/-- V71. -/
theorem test_div_wraps :
    after (mk 0 64 [0x0B] [-2147483648, -1]) = some ([-2147483648], 1, .running) := by decide
/-- V73. -/
theorem test_div_zero : faultAfter (mk 0 64 [0x0B] [7, 0]) = some (.divisionByZero, 0, 0, 2) := by
  decide
/-- V78. -/
theorem test_print :
    (match step { mk 0 64 [0x0C] [1, -1] with out := [5] } with
      | .next t => (live t, t.out.map BitVec.toInt)
      | .fault _ => ([], [])
      | .refused _ => ([], [])) = ([1], [5, -1]) := by decide
/-- V80. -/
theorem test_stop : after (mk 12 64 [0x0D] [5, -3]) = some ([5, -3], 13, .halted) := by decide
/-- V81. -/
theorem test_no_step_when_halted : after { mk 0 64 [0x00] [] with status := .halted } = none := by
  decide

/-! ### The host (R103-R107) -/

/-- Program P8 of 95_test_vectors.md loaded in the boot order: its bytes, L = 3, and zero padding. -/
theorem test_boot :
    (match Block.onAll (bootEvents Config.default [0x05, 0x00, 0x00]) ⟨false, sPush⟩ with
      | .next b => (b.rst, b.core.progLen, b.core.imemByte? 0, b.core.imemByte? 3, b.core.sp)
      | .fault _ => (true, 0, none, none, 0)
      | .refused _ => (true, 0, none, none, 0)) = (false, 3, some 0x05, some 0x00, 0) := by decide
/-- The port widths of R105 at the default sizes. -/
theorem test_port_widths :
    Config.loadAddrWidth Config.default = 10 ∧ Config.ipWidth Config.default = 11 := by decide

/-! ### Assembler text (R59-R63): program P3 of 95_test_vectors.md, its first lines -/

theorem test_assemble_label :
    assemble? OpcodeMap.standard
      ['J', 'Z', ' ', 'e', '\n', 'N', 'O', 'P', ' ', ';', ' ', 'x', '\n', 'e', ':', ' ', 'P', 'O', 'P'] =
      some [0x06, 0x04, 0x00, 0x00, 0x02] := by decide
/-- Two instructions on one line, separated by a blank, then one on a line of its own. -/
theorem test_assemble_blanks :
    assemble? OpcodeMap.standard
      ['L', 'O', 'A', 'D', ' ', '9', '9', ' ', 'A', 'D', 'D', '\n', 'S', 'T', 'O', 'P'] =
      some [0x03, 0x63, 0x08, 0x0D] := by decide
theorem test_assemble_out_of_range :
    assemble? OpcodeMap.standard ['L', 'O', 'A', 'D', ' ', '1', '2', '8'] = none := by decide
theorem test_assemble_hex :
    assemble? OpcodeMap.standard ['P', 'U', 'S', 'H', ' ', '0', 'x', '1', 'F'] =
      some [0x01, 0x1F, 0, 0, 0] := by decide
theorem test_disassemble :
    disassemble? OpcodeMap.standard [0x05, 0xFF, 0xFF] = some ['J', 'M', 'P', ' ', '-', '1'] := by decide
theorem test_disassemble_illegal :
    disassemble? OpcodeMap.standard [0x0E] =
      some ['.', 'b', 'y', 't', 'e', ' ', '0', 'x', '0', 'E'] := by decide

/-! ### Witnesses: the hypotheses of each statement are met -/

/-- A full stack. -/
def sFull : State := { mk 0 64 [0x01, 0xFE, 0xFF, 0xFF, 0xFF] [] with sp := 255 }
/-- One entry below full. -/
def sNearlyFull : State := { sFull with sp := 254 }
/-- An empty stack. -/
def sEmpty : State := mk 0 64 [0x02] []
/-- One live entry, 0. -/
def sZero : State := mk 0 64 [0x06, 0x0F, 0x00] [0]
/-- One live entry, not 0. -/
def sOne : State := mk 0 64 [0x06, 0x0F, 0x00] [1]
/-- Operands 7 and 2. -/
def sTwo : State := mk 0 64 [0x0B] [7, 2]
/-- The two operands whose quotient wraps. -/
def sMinByMinusOne : State := mk 0 64 [0x0B] [-2147483648, -1]

theorem witness_DecodeOfEncodeGivesTheInstruction :
    OpcodeMap.standard.wf ∧ (Instr.push (-2147483648)).wf = true ∧ (Instr.load 127).wf = true ∧
      (Instr.jmp 32767).wf = true := by decide
theorem witness_DecodedBytesAreTheEncoding :
    decode OpcodeMap.standard [0x05, 0x0F, 0x00, 0x0D] = .instr (.jmp 15) [0x0D] := by decide
theorem witness_IllegalOpcodeBytes :
    (mk 1023 64 [0x0E] []).status = .running ∧
      (mk 1023 64 [0x0E] []).cfg.opcodes = OpcodeMap.standard ∧
      (mk 1023 64 [0x0E] []).imemByte? 1023 = some 0x0E ∧ 0x0E ≤ (0x0E : Byte).toNat ∧
      0x0E ≤ (0xFF : Byte).toNat ∧ ¬ 0x0E ≤ (0x0D : Byte).toNat := by decide
theorem witness_OperandIsSignedLittleEndian :
    leInt [0x80] = -128 ∧ leInt [0xFF, 0x7F] = 32767 ∧ leInt [0, 0, 0, 0x80] = -2147483648 := by decide
theorem witness_StepRunsTheDecodedInstruction :
    sPush.status = .running ∧
      decode sPush.cfg.opcodes sPush.window = .instr (.push (-2)) [] := by decide
theorem witness_StepRunsTheInstructionStoredAtIp :
    sPush.status = .running ∧ sPush.cfg.opcodes.wf ∧ (Instr.push (-2)).wf = true ∧
      ∀ k, k < (Instr.push (-2)).opcode.length →
        sPush.imemByte? (sPush.ip + k) = (encode sPush.cfg.opcodes (.push (-2)))[k]? := by decide
theorem witness_StepFollowsTheInstructionCycle :
    (mk 1024 64 [] []).status = .running ∧ (mk 1024 64 [] []).cfg.progCap ≤ (mk 1024 64 [] []).ip ∧
      (mk 5 64 [0xFF] []).imemByte? 5 = some 0xFF ∧ OpcodeMap.standard.opcode? 0xFF = none ∧
      (mk 1020 64 [0x01] []).imemByte? 1020 = some 0x01 ∧
      OpcodeMap.standard.opcode? 0x01 = some .push ∧ 1024 < 1020 + 1 + Opcode.push.width ∧
      1019 + 1 + Opcode.push.width ≤ 1024 := by decide
theorem witness_RunningBlockAlwaysSteps :
    (sPush.status = .running ∧ decode sPush.cfg.opcodes sPush.window = .instr (.push (-2)) []) ∧
      (let s := mk 1024 64 [] []; s.status = .running ∧ decode s.cfg.opcodes s.window = .noOpcode) ∧
      (let s := mk 1023 64 [0x0E] []
       s.status = .running ∧ decode s.cfg.opcodes s.window = .unknownOpcode 0x0E) ∧
      (let s := mk 1020 64 [0x01] []
       s.status = .running ∧ decode s.cfg.opcodes s.window = .truncated .push) := by decide
theorem witness_NoStepAfterTheRunHasEnded :
    { sPush with status := .halted }.status ≠ .running ∧
      { sPush with status := .faulted }.status ≠ .running := by decide
theorem witness_SequentialAdvance :
    sOne.status = .running ∧ decode sOne.cfg.opcodes sOne.window = .instr (.jz 15) [0, 0] ∧
      after sOne = some ([], 3, .running) ∧ (sOne.entry (sOne.sp - 1)).toInt ≠ 0 ∧
      decode sPush.cfg.opcodes sPush.window = .instr (.push (-2)) [] ∧
      after sPush = some ([7, 0, -2], 5, .running) ∧
      after (mk 33 40 [0x07, 0x0E, 0x00] [0]) = some ([], 36, .running) := by decide
theorem witness_FetchEndsAtProgCap :
    (mk 1024 64 [] []).status = .running ∧ 1024 ≤ (mk 1024 64 [] []).ip := by decide
theorem witness_FetchBounded :
    (FetchesOpcode .push (mk 1020 64 [0x01] []) ∧ 1024 < 1020 + Opcode.push.length) ∧
      (FetchesOpcode .load (mk 1023 64 [0x03] []) ∧ 1024 < 1023 + Opcode.load.length) ∧
      (FetchesOpcode .store (mk 1023 64 [0x04] []) ∧ 1024 < 1023 + Opcode.store.length) ∧
      (FetchesOpcode .jmp (mk 1022 64 [0x05] []) ∧ 1024 < 1022 + Opcode.jmp.length) ∧
      (FetchesOpcode .jz (mk 1022 64 [0x06] []) ∧ 1024 < 1022 + Opcode.jz.length) ∧
      (FetchesOpcode .jnz (mk 1022 64 [0x07] []) ∧ 1024 < 1022 + Opcode.jnz.length) := by decide
theorem witness_PushPushesTheImmediate :
    InSigned 32 (-2147483648) ∧ InSigned 32 2147483647 ∧ sNearlyFull.sp < sNearlyFull.cfg.stackCap ∧
      sFull.sp = sFull.cfg.stackCap := by decide
theorem witness_PopDiscardsTheTop : 0 < sOne.sp ∧ sEmpty.sp = 0 := by decide
theorem witness_LoadPushesTheRegister :
    ValidReg 0 sNearlyFull ∧ ValidReg 15 sNearlyFull ∧ sNearlyFull.sp < sNearlyFull.cfg.stackCap ∧
      ¬ ValidReg 16 sNearlyFull ∧ ¬ ValidReg (-1) sNearlyFull ∧
      ValidReg 15 sFull ∧ sFull.sp = sFull.cfg.stackCap := by decide
theorem witness_StorePopsIntoTheRegister :
    ValidReg 15 sOne ∧ 0 < sOne.sp ∧ ¬ ValidReg 16 sOne ∧ ValidReg 0 sEmpty ∧ sEmpty.sp = 0 := by decide
theorem witness_JumpTargetsAreCheckedAgainstTheProgramLength :
    (0 < sZero.sp ∧ (sZero.entry (sZero.sp - 1)).toInt = 0) ∧
      (0 < sOne.sp ∧ (sOne.entry (sOne.sp - 1)).toInt ≠ 0) ∧
      ValidTarget 63 sZero ∧ ¬ ValidTarget 64 sZero ∧ ValidTarget 0 sOne ∧ ¬ ValidTarget (-1) sOne := by
  decide
theorem witness_JmpGoesToTheTarget : ValidTarget 63 sEmpty ∧ ¬ ValidTarget 64 sEmpty := by decide
theorem witness_JzPopsAndJumpsOnZero :
    0 < sZero.sp ∧ (sZero.entry (sZero.sp - 1)).toInt = 0 ∧ ValidTarget 63 sZero ∧
      ¬ ValidTarget 64 sZero ∧ 0 < sOne.sp ∧ (sOne.entry (sOne.sp - 1)).toInt ≠ 0 ∧ sEmpty.sp = 0 := by
  decide
theorem witness_JnzPopsAndJumpsOnNonzero :
    0 < sOne.sp ∧ (sOne.entry (sOne.sp - 1)).toInt ≠ 0 ∧ ValidTarget 0 sOne ∧
      ¬ ValidTarget (-1) sOne ∧ 0 < sZero.sp ∧ (sZero.entry (sZero.sp - 1)).toInt = 0 ∧ sEmpty.sp = 0 := by
  decide
theorem witness_JumpToItselfNeverEnds :
    (mk 7 64 [0x05, 0x07, 0x00] []).status = .running ∧ 7 < (mk 7 64 [0x05, 0x07, 0x00] []).progLen ∧
      decode (mk 7 64 [0x05, 0x07, 0x00] []).cfg.opcodes (mk 7 64 [0x05, 0x07, 0x00] []).window =
        .instr (.jmp 7) [0, 0] := by decide
theorem witness_BinaryOperations : 2 ≤ sTwo.sp ∧ sOne.sp < 2 ∧ sEmpty.sp < 2 := by decide
theorem witness_DivReplacesTheTopTwoByTheirQuotient :
    2 ≤ sTwo.sp ∧ (sTwo.entry (sTwo.sp - 1)).toInt ≠ 0 ∧
      2 ≤ sPush.sp ∧ (sPush.entry (sPush.sp - 1)).toInt = 0 := by decide
theorem witness_DivisionLaw :
    2 ≤ sMinByMinusOne.sp ∧ (sMinByMinusOne.entry 0).toInt = -(2 ^ 31) ∧
      (sMinByMinusOne.entry 1).toInt = -1 ∧ (sTwo.entry 1).toInt ≠ -1 ∧ (sTwo.entry 1).toInt ≠ 0 := by
  decide
theorem witness_PrintPopsAndEmits : 0 < sOne.sp ∧ sEmpty.sp = 0 := by decide
theorem witness_FaultsArePrecise :
    ∃ t, sEmpty.status = .running ∧ step sEmpty = .next t ∧ t.status = .faulted := ⟨_, rfl, rfl, rfl⟩
theorem witness_InstructionsRaiseOnlyTheirOwnFaults :
    ∃ t, sPush.status = .running ∧ exec .div sPush = .next t ∧ t.status = .faulted :=
  ⟨_, rfl, exec_div_zero (by decide) (by decide), rfl⟩
theorem witness_FaultPriority :
    (mk 1024 64 [] []).cfg.progCap ≤ (mk 1024 64 [] []).ip ∧
      (mk 1023 64 [0x0E] []).imemByte? 1023 = some 0x0E ∧
      FetchesOpcode .jmp (mk 1022 64 [0x05] []) ∧ 1024 < 1022 + 1 + Opcode.jmp.width ∧
      (¬ ValidReg 99 sFull ∧ sFull.sp = sFull.cfg.stackCap) ∧ (¬ ValidReg 16 sEmpty ∧ sEmpty.sp = 0) ∧
      (ValidReg 15 sEmpty ∧ ¬ ValidTarget 64 sEmpty) ∧ sOne.sp < 2 ∧
      (¬ ValidTarget 64 sZero ∧ 0 < sZero.sp ∧ (sZero.entry (sZero.sp - 1)).toInt = 0) ∧
      (¬ ValidTarget 64 sOne ∧ 0 < sOne.sp ∧ (sOne.entry (sOne.sp - 1)).toInt ≠ 0) ∧
      (2 ≤ sPush.sp ∧ (sPush.entry (sPush.sp - 1)).toInt = 0) := by decide
theorem witness_StatusAndFaultCodes :
    State.reset.faultKind = none ∧ (State.reset.raise .endOfProgram).faultKind = some .endOfProgram := by
  decide
theorem witness_RunResultFollowsStatusAndKind :
    State.reset.halt.status = .halted ∧ (State.reset.raise .stackUnderflow).status = .faulted ∧
      (State.reset.raise .stackUnderflow).faultKind = some .stackUnderflow ∧
      State.reset.status = .running := by decide
theorem witness_StepKeepsTheStateLegal : sPush.wf ∧ after sPush = some ([7, 0, -2], 5, .running) := by
  decide
theorem witness_PointersStayInRange :
    sPush.ip ≤ sPush.cfg.progCap ∧ sPush.progLen ≤ sPush.cfg.progCap ∧ sPush.sp ≤ sPush.cfg.stackCap ∧
      ∃ t, step sPush = .next t := ⟨by decide, by decide, by decide, _, rfl⟩
theorem witness_ProgramIsFixedForTheRun : ∃ t, Sys2Proof.core.run 2 sPush = .next t := ⟨_, rfl⟩
theorem witness_OnlyStoreWritesARegister :
    (∃ t, exec (.store 3) sOne = .next t) ∧ ((4 : Nat) : Int) ≠ 3 ∧
      ((∃ t, exec .pop sOne = .next t) ∧ ∀ r, Instr.pop ≠ .store r) :=
  ⟨⟨_, rfl⟩, by decide, ⟨_, rfl⟩, by simp⟩
theorem witness_OnlyLoadReadsARegister :
    ((∀ r, Instr.print ≠ .load r) ∧ ∃ t, exec .print sOne = .next t) ∧
      (∀ r, Instr.store 15 ≠ .load r) ∧ ∃ t, exec (.store 15) sOne = .next t :=
  ⟨⟨by simp, _, rfl⟩, by simp, _, rfl⟩
theorem witness_OutputIsAppendOnly :
    (∃ t, exec .pop sOne = .next t) ∧ Instr.pop ≠ .print ∧ (∃ t, step sPush = .next t) ∧
      ∃ t, Sys2Proof.core.run 2 sPush = .next t := ⟨⟨_, rfl⟩, by decide, ⟨_, rfl⟩, _, rfl⟩
theorem witness_OutputPortShowsEachEmittedValue :
    ∃ t, step (mk 0 64 [0x0C] [7]) = .next t ∧ outData? (mk 0 64 [0x0C] [7]) t = some 7 :=
  ⟨_, rfl, by decide⟩
theorem witness_EntriesBelowTheTopTwoAreKept :
    0 + 2 < (mk 0 64 [0x08] [9, 3, 4]).sp ∧ ∃ t, step (mk 0 64 [0x08] [9, 3, 4]) = .next t :=
  ⟨by decide, _, rfl⟩
theorem witness_DeadEntriesAreUnobservable :
    SameButDead sPush { sPush with stack := sPush.stack.write 2 99 } ∧
      sPush ≠ { sPush with stack := sPush.stack.write 2 99 } ∧
      ∃ t, Sys2Proof.core.run 1 sPush = .next t :=
  ⟨by unfold SameButDead; decide, by decide, _, rfl⟩
theorem witness_OnlyStopHalts : sPush.status = .running ∧ ∃ t, exec .stop sPush = .next t :=
  ⟨rfl, _, rfl⟩
theorem witness_PaddingRunsAsNopsThenEndsTheProgram :
    (mk 1022 5 [] [1]).status = .running ∧ (mk 1022 5 [] [1]).cfg.opcodes.wf ∧
      (mk 1022 5 [] [1]).ip ≤ (mk 1022 5 [] [1]).cfg.progCap ∧
      (∀ a, (mk 1022 5 [] [1]).ip ≤ a → a < (mk 1022 5 [] [1]).cfg.progCap →
        (mk 1022 5 [] [1]).imemByte? a = some 0) :=
  ⟨by decide, by decide, by decide, fun _ _ h => State.imemByte?_of_lt h⟩
theorem witness_BootLoadsTheProgram :
    ({ rst := false, core := { sPush with status := .halted } } : Block).rst = false := rfl
theorem witness_HostWritesCountOnlyUnderReset :
    ({ rst := false, core := { sPush with status := .faulted } } : Block).rst = false := rfl
theorem witness_StorageIsExtensional :
    Cells.wf ([(0, 1), (2, 5)] : Cells 32) ∧ Cells.wf ([] : Cells 32) ∧
      Cells.wf ([(0, 0x0C), (1023, 0xFF)] : Cells 8) := by decide
theorem witness_LabelFreeProgramsAssemble :
    (∀ i ∈ [Instr.push (-2), .store 99, .jmp 32767, .stop], i.wf = true) ∧
      textOf '\n' [.pop, .jmp 15] = ['P', 'O', 'P', '\n', 'J', 'M', 'P', ' ', '1', '5'] := by decide
theorem witness_DisassemblyAssemblesBack : (Instr.push (-2147483648)).wf = true := by decide

end Sys2Proof.Tests
end

section
/-! SUPPORT. What one instruction and one step do to each group of fields, and the induction over the steps of a run. Every lemma
here starts from `Effect`, `exec_cases` and `step_cases`. -/

namespace Sys2Proof.Machine

/-! ### Every effect is an answer of `exec` -/

/-- The converse of `exec_cases`. -/
theorem exec_of_effect {i : Instr} {s t : State} (h : Effect i s t) : exec i s = .next t := by
  cases h with
  | raises k hk => exact exec_of_ownFault hk
  | nop => exact exec_nop
  | push v h => exact exec_push_room v h
  | pop h => exact exec_pop_live h
  | load r hr h => exact exec_load_room hr h
  | store r hr h => exact exec_store_live hr h
  | jmp a ha => exact exec_jmp_valid ha
  | taken _ a hi ha h =>
    obtain ⟨rfl, hz⟩ | ⟨rfl, hz⟩ := hi
    · exact popBranch_taken h hz ha
    · exact (exec_jnz_eq a).trans (popBranch_taken h (by simp [hz]) ha)
  | notTaken _ a hi h =>
    obtain ⟨rfl, hz⟩ | ⟨rfl, hz⟩ := hi
    · exact popBranch_notTaken h hz
    · exact (exec_jnz_eq a).trans (popBranch_notTaken h (by simp [hz]))
  | binary _ v hi h =>
    obtain ⟨rfl, rfl⟩ | ⟨rfl, rfl⟩ | ⟨rfl, rfl⟩ | ⟨rfl, rfl, hb⟩ := hi
    · exact binaryOp_live h
    · exact binaryOp_live h
    · exact binaryOp_live h
    · exact exec_div_live h hb
  | print h => exact exec_print_live h
  | stop => exact exec_stop

/-! ### Program and parameters -/

/-- No instruction writes the parameters, the instruction store or `L` (10_state.md R28, 20_memory.md R35). -/
theorem Effect.program_eq {i : Instr} {s t : State} (h : Effect i s t) :
    t.cfg = s.cfg ∧ t.imem = s.imem ∧ t.progLen = s.progLen := by
  cases h <;> exact ⟨rfl, rfl, rfl⟩

theorem step_program_eq {s t : State} (h : step s = .next t) :
    t.cfg = s.cfg ∧ t.imem = s.imem ∧ t.progLen = s.progLen := by
  obtain ⟨-, ⟨i, -, he⟩ | ⟨k, -, rfl⟩⟩ := step_cases h
  · exact he.program_eq
  · exact ⟨rfl, rfl, rfl⟩

/-! ### The instruction pointer -/

/-- `ip` stays, goes just past the instruction, or goes to an address below `L` (30_encoding.md R56, 42_control_transfer.md R70). -/
theorem Effect.ip_cases {i : Instr} {s t : State} (h : Effect i s t) :
    t.ip = s.ip ∨ t.ip = s.ip + i.opcode.length ∨ t.ip < s.progLen := by
  cases h with
  | raises k hk => exact .inl rfl
  | jmp a ha => exact .inr (.inr (by simp only [State.goto_ip]; omega))
  | taken _ a hi ha h => exact .inr (.inr (by simp only [State.goto_ip]; omega))
  | _ => exact .inr (.inl rfl)

theorem step_ip_le {s t : State} (hip : s.ip ≤ s.cfg.progCap) (hL : s.progLen ≤ s.cfg.progCap)
    (h : step s = .next t) : t.ip ≤ s.cfg.progCap := by
  obtain ⟨-, ⟨i, hi, he⟩ | ⟨k, -, rfl⟩⟩ := step_cases h
  · have hfit := fetch_ok_bound hi
    have := he.ip_cases
    omega
  · exact hip

/-! ### The stack -/

/-- What can become of the stack: untouched but for a pop, one entry pushed, or the top two replaced by one (10_state.md R20,
43_arithmetic.md R74). -/
inductive StackMove (s t : State) : Prop where
  | keep (hm : t.stack = s.stack) (hsp : t.sp = s.sp)
  | pop (hm : t.stack = s.stack) (hne : s.sp ≠ 0) (hsp : t.sp = s.sp - 1)
  | push (v : Word) (hm : t.stack = s.stack.write s.sp v) (hne : s.sp ≠ s.cfg.stackCap)
      (hsp : t.sp = s.sp + 1)
  | combine (v : Word) (hm : t.stack = s.stack.write (s.sp - 2) v) (hle : 2 ≤ s.sp)
      (hsp : t.sp = s.sp - 1)

theorem Effect.stackMove {i : Instr} {s t : State} (h : Effect i s t) : StackMove s t := by
  cases h with
  | raises k hk => exact .keep rfl rfl
  | nop => exact .keep rfl rfl
  | push v h => exact .push _ rfl h rfl
  | pop h => exact .pop rfl h rfl
  | load r hr h => exact .push _ rfl h rfl
  | store r hr h => exact .pop rfl h rfl
  | jmp a ha => exact .keep rfl rfl
  | taken _ a hi ha h => exact .pop rfl h rfl
  | notTaken _ a hi h => exact .pop rfl h rfl
  | binary _ v hi h => exact .combine v rfl h rfl
  | print h => exact .pop rfl h rfl
  | stop => exact .keep rfl rfl

theorem step_stackMove {s t : State} (h : step s = .next t) : StackMove s t := by
  obtain ⟨-, ⟨i, -, he⟩ | ⟨k, -, rfl⟩⟩ := step_cases h
  · exact he.stackMove
  · exact .keep rfl rfl

theorem StackMove.sp_bounds {s t : State} (h : StackMove s t) (hsp : s.sp ≤ s.cfg.stackCap) :
    t.sp ≤ s.cfg.stackCap ∧ t.sp ≤ s.sp + 1 ∧ s.sp ≤ t.sp + 1 := by
  cases h <;> omega

/-- The stack memory stays canonical and within its capacity. -/
theorem StackMove.stack_ok {s t : State} (h : StackMove s t) (hsp : s.sp ≤ s.cfg.stackCap)
    (hwf : s.stack.wf) (hbelow : s.stack.below s.cfg.stackCap) :
    t.stack.wf ∧ t.stack.below s.cfg.stackCap := by
  cases h with
  | keep hm => exact hm ▸ ⟨hwf, hbelow⟩
  | pop hm => exact hm ▸ ⟨hwf, hbelow⟩
  | push v hm hne => exact hm ▸ ⟨Cells.write_wf hwf _ v, Cells.write_below hbelow v (by omega)⟩
  | combine v hm hle => exact hm ▸ ⟨Cells.write_wf hwf _ v, Cells.write_below hbelow v (by omega)⟩

theorem StackMove.entry_kept {s t : State} (h : StackMove s t) {k : Nat} (hk : k + 2 < s.sp) :
    t.entry k = s.entry k ∧ k < t.sp := by
  simp only [State.entry_eq_read]
  cases h with
  | keep hm hsp => exact ⟨by rw [hm], by omega⟩
  | pop hm _ hsp => exact ⟨by rw [hm], by omega⟩
  | push v hm _ hsp => exact ⟨by rw [hm, Cells.read_write_other _ v (by omega)], by omega⟩
  | combine v hm _ hsp => exact ⟨by rw [hm, Cells.read_write_other _ v (by omega)], by omega⟩

/-! ### The registers -/

theorem Effect.regs_eq {i : Instr} {s t : State} (h : Effect i s t) (hi : ∀ r, i ≠ .store r) :
    t.regs = s.regs := by
  cases h with
  | store r hr h => exact absurd rfl (hi r)
  | _ => rfl

/-- An instruction leaves the register file alone or is a STORE to one register that exists (10_state.md R22, R23). -/
theorem Effect.regs_cases {i : Instr} {s t : State} (h : Effect i s t) :
    t.regs = s.regs ∨
      ∃ r v, i = .store (r : Nat) ∧ r < s.cfg.regCount ∧ t.regs = s.regs.write r v := by
  cases h with
  | store r hr h =>
    exact .inr ⟨r.toNat, s.top, by rw [Int.toNat_of_nonneg hr.1], by omega, rfl⟩
  | _ => exact .inl rfl

/-- The register file stays canonical and within its capacity. -/
theorem step_regs_ok {s t : State} (h : step s = .next t) (hwf : s.regs.wf)
    (hbelow : s.regs.below s.cfg.regCount) : t.regs.wf ∧ t.regs.below s.cfg.regCount := by
  obtain ⟨-, ⟨i, -, he⟩ | ⟨k, -, rfl⟩⟩ := step_cases h
  · obtain hm | ⟨r, v, -, hr, hm⟩ := he.regs_cases
    · exact hm ▸ ⟨hwf, hbelow⟩
    · exact hm ▸ ⟨Cells.write_wf hwf r v, Cells.write_below hbelow v hr⟩
  · exact ⟨hwf, hbelow⟩

/-! ### The output -/

theorem Effect.out_eq {i : Instr} {s t : State} (h : Effect i s t) (hi : i ≠ .print) :
    t.out = s.out := by
  cases h with
  | print h => exact absurd rfl hi
  | _ => rfl

theorem Effect.out_cases {i : Instr} {s t : State} (h : Effect i s t) :
    t.out = s.out ∨ ∃ v, t.out = s.out ++ [v] := by
  cases h with
  | print h => exact .inr ⟨s.top, rfl⟩
  | _ => exact .inl rfl

theorem step_out_cases {s t : State} (h : step s = .next t) :
    t.out = s.out ∨ ∃ v, t.out = s.out ++ [v] := by
  obtain ⟨-, ⟨i, -, he⟩ | ⟨k, -, rfl⟩⟩ := step_cases h
  · exact he.out_cases
  · exact .inl rfl

/-! ### The status and the fault latch -/

/-- An instruction raises a fault of its own, or leaves the latch alone and the status too unless it is STOP. -/
theorem Effect.control_cases {i : Instr} {s t : State} (h : Effect i s t) :
    (i ≠ .stop ∧ ∃ k, t = s.raise k) ∨
    (t.faultKind = s.faultKind ∧ t.faultPc = s.faultPc ∧
      t.status = if i = .stop then .halted else s.status) := by
  cases h with
  | raises k hk => exact .inl ⟨by rintro rfl; simp [ownFault?] at hk, k, rfl⟩
  | taken _ a hi ha h => exact .inr ⟨rfl, rfl, by obtain ⟨rfl, -⟩ | ⟨rfl, -⟩ := hi <;> rfl⟩
  | notTaken _ a hi h => exact .inr ⟨rfl, rfl, by obtain ⟨rfl, -⟩ | ⟨rfl, -⟩ := hi <;> rfl⟩
  | binary _ v hi h =>
    exact .inr ⟨rfl, rfl, by obtain ⟨rfl, -⟩ | ⟨rfl, -⟩ | ⟨rfl, -⟩ | ⟨rfl, -⟩ := hi <;> rfl⟩
  | _ => exact .inr ⟨rfl, rfl, rfl⟩

theorem State.raise_latchOk (s : State) (k : FaultKind) : (s.raise k).latchOk :=
  ⟨fun hne => absurd rfl hne, fun _ => ⟨rfl, rfl⟩⟩

theorem step_latchOk {s t : State} (h : step s = .next t) (hok : s.latchOk) : t.latchOk := by
  obtain ⟨hrun, ⟨i, -, he⟩ | ⟨k, -, rfl⟩⟩ := step_cases h
  · obtain ⟨-, k, rfl⟩ | ⟨hkind, hpc, hstatus⟩ := he.control_cases
    · exact s.raise_latchOk k
    · have hclear := hok.1 (by simp [hrun])
      have hsafe : t.status ≠ .faulted := by rw [hstatus]; split <;> simp [hrun]
      exact ⟨fun _ => by rwa [hkind, hpc], fun hf => absurd hf hsafe⟩
  · exact s.raise_latchOk k

/-! ### Runs -/

theorem run_zero {s t : State} (h : Sys2Proof.core.run 0 s = .next t) : s = t :=
  Host.Outcome.next.inj h

theorem run_succ_of_step {s u : State} (h : step s = .next u) (n : Nat) :
    Sys2Proof.core.run (n + 1) s = Sys2Proof.core.run n u := by
  simp only [Host.Core.run, Sys2Proof.core, h]

theorem run_succ_cases {n : Nat} {s t : State} (h : Sys2Proof.core.run (n + 1) s = .next t) :
    ∃ u, step s = .next u ∧ Sys2Proof.core.run n u = .next t := by
  cases hs : step s with
  | next u => exact ⟨u, rfl, by rwa [run_succ_of_step hs] at h⟩
  | fault r => simp [Host.Core.run, Sys2Proof.core, hs] at h
  | refused r => simp [Host.Core.run, Sys2Proof.core, hs] at h

/-- A reflexive and transitive relation that every step respects is respected by every run. -/
theorem run_related {R : State → State → Prop} (hrefl : ∀ s, R s s)
    (htrans : ∀ s u t, R s u → R u t → R s t) (hstep : ∀ s t, step s = .next t → R s t)
    {n : Nat} {s t : State} (h : Sys2Proof.core.run n s = .next t) : R s t := by
  induction n generalizing s with
  | zero => exact run_zero h ▸ hrefl s
  | succ n ih =>
    obtain ⟨u, hu, hn⟩ := run_succ_cases h
    exact htrans s u t (hstep s u hu) (ih hn)

/-- A relation that is a simulation for one step is one for every number of steps. -/
theorem run_simulation {R : State → State → Prop}
    (hstep : ∀ s s' t, R s s' → step s = .next t → ∃ t', step s' = .next t' ∧ R t t')
    {n : Nat} {s s' t : State} (hR : R s s') (h : Sys2Proof.core.run n s = .next t) :
    ∃ t', Sys2Proof.core.run n s' = .next t' ∧ R t t' := by
  induction n generalizing s s' with
  | zero => exact ⟨s', rfl, run_zero h ▸ hR⟩
  | succ n ih =>
    obtain ⟨u, hu, hn⟩ := run_succ_cases h
    obtain ⟨u', hu', hRu⟩ := hstep s s' u hR hu
    obtain ⟨t', ht', hRt⟩ := ih hRu hn
    exact ⟨t', (run_succ_of_step hu' n).trans ht', hRt⟩

end Sys2Proof.Machine
end

section
/-! PROOF. The legal states (O35, O36) and the ranges of the two pointers (O37, O38). -/

namespace Sys2Proof.Machine

/-- Settles O35, field group by field group. -/
theorem stepKeepsTheStateLegal : Obligations.StepKeepsTheStateLegal := by
  rintro s t ⟨hcfg, ⟨hip, hsp, hL⟩, ⟨himem, ⟨hstack, hstackCap⟩, hregs, hregCap⟩, hlatch⟩ h
  obtain ⟨hc, hm, hp⟩ := step_program_eq h
  have hmove := step_stackMove h
  have hrange : t.inRange := by
    rw [State.inRange, hc, hp]
    exact ⟨step_ip_le hip hL h, (hmove.sp_bounds hsp).1, hL⟩
  have hstores : t.storesOk := by
    rw [State.storesOk, hc, hm]
    exact ⟨himem, hmove.stack_ok hsp hstack hstackCap, step_regs_ok h hregs hregCap⟩
  exact ⟨hc ▸ hcfg, hrange, hstores, step_latchOk h hlatch⟩

/-- The state before anything is loaded is legal for all parameters the spec allows. -/
theorem State.initial_wf {c : Config} (hc : c.wf) : (State.initial c).wf := by
  refine ⟨hc, ⟨Nat.zero_le _, Nat.zero_le _, Nat.zero_le _⟩, ?_, ?_⟩
  · exact ⟨⟨Cells.nil_wf, List.forall_mem_nil _⟩, ⟨Cells.nil_wf, List.forall_mem_nil _⟩,
      Cells.nil_wf, List.forall_mem_nil _⟩
  · exact ⟨fun _ => ⟨rfl, rfl⟩, nofun⟩

theorem Config.default_wf : Config.default.wf := by decide

/-- Settles O36. -/
theorem resetStateIsLegal : Obligations.ResetStateIsLegal := State.initial_wf Config.default_wf

/-- `bitsFor n` is the least width that holds `n` (00_scope.md R13's `ceil(log2(n + 1))`). -/
theorem bitsFor_le_iff (n w : Nat) : bitsFor n ≤ w ↔ n < 2 ^ w := by
  unfold bitsFor
  split
  · next h => simp [h]
  · next h => rw [Nat.succ_le_iff, Nat.log2_lt h]

theorem bitsFor_least (n : Nat) : n < 2 ^ bitsFor n ∧ ∀ w, n < 2 ^ w → bitsFor n ≤ w :=
  ⟨(bitsFor_le_iff n _).mp le_rfl, fun w => (bitsFor_le_iff n w).mpr⟩

/-- Settles O37: an instruction is fetched only where it ends at or below PROG_CAP, and a target lies below L. -/
theorem instructionPointerStaysInRange : Obligations.InstructionPointerStaysInRange := by
  refine ⟨fun s t hip hL h => ?_, fun c => bitsFor_least c.progCap, by decide⟩
  rw [(step_program_eq h).1]
  exact step_ip_le hip hL h

/-- Settles O38, by the four moves of the stack. -/
theorem stackPointerStaysInRange : Obligations.StackPointerStaysInRange := by
  refine ⟨fun s t hsp h => ?_, fun c => bitsFor_least c.stackCap, by decide⟩
  rw [(step_program_eq h).1]
  exact (step_stackMove h).sp_bounds hsp

end Sys2Proof.Machine
end

section
/-! PROOF. Dead stack entries cannot be observed (O45): `SameButDead` is a simulation. -/

namespace Sys2Proof.Machine

/-! ### The relation and the named updates -/

theorem sameButDead_iff {s s' : State} :
    SameButDead s s' ↔ ∃ c, s' = { s with stack := c } ∧ ∀ i, i < s.sp → c.read i = s.stack.read i :=
  ⟨fun ⟨hlive, hs'⟩ => ⟨s'.stack, hs', hlive⟩, by rintro ⟨c, rfl, hlive⟩; exact ⟨hlive, rfl⟩⟩

section updates

variable {s s' : State} (h : SameButDead s s')
include h

theorem SameButDead.goto (a : Nat) : SameButDead (s.goto a) (s'.goto a) := by
  obtain ⟨c, rfl, hlive⟩ := sameButDead_iff.mp h
  exact ⟨hlive, rfl⟩

theorem SameButDead.raise (k : FaultKind) : SameButDead (s.raise k) (s'.raise k) := by
  obtain ⟨c, rfl, hlive⟩ := sameButDead_iff.mp h
  exact ⟨hlive, rfl⟩

theorem SameButDead.halt : SameButDead s.halt s'.halt := by
  obtain ⟨c, rfl, hlive⟩ := sameButDead_iff.mp h
  exact ⟨hlive, rfl⟩

theorem SameButDead.emit (v : Word) : SameButDead (s.emit v) (s'.emit v) := by
  obtain ⟨c, rfl, hlive⟩ := sameButDead_iff.mp h
  exact ⟨hlive, rfl⟩

theorem SameButDead.setReg (r : Nat) (v : Word) : SameButDead (s.setReg r v) (s'.setReg r v) := by
  obtain ⟨c, rfl, hlive⟩ := sameButDead_iff.mp h
  exact ⟨hlive, rfl⟩

/-- The entry a pop releases becomes dead, so fewer entries have to agree. -/
theorem SameButDead.dropTop : SameButDead s.dropTop s'.dropTop := by
  obtain ⟨c, rfl, hlive⟩ := sameButDead_iff.mp h
  exact ⟨fun i hi => hlive i (Nat.lt_of_lt_of_le hi (Nat.sub_le ..)), rfl⟩

/-- A push writes the first dead entry, so the entry that becomes live agrees. -/
theorem SameButDead.pushWord (v : Word) : SameButDead (s.pushWord v) (s'.pushWord v) := by
  obtain ⟨c, rfl, hlive⟩ := sameButDead_iff.mp h
  refine ⟨fun i hi => ?_, rfl⟩
  simp only [State.pushWord_entry, State.pushWord_sp] at hi ⊢
  split
  · rfl
  · exact hlive i (by omega)

theorem SameButDead.replaceTopTwo (v : Word) :
    SameButDead (s.replaceTopTwo v) (s'.replaceTopTwo v) := by
  obtain ⟨c, rfl, hlive⟩ := sameButDead_iff.mp h
  refine ⟨fun i hi => ?_, rfl⟩
  simp only [State.replaceTopTwo_entry, State.replaceTopTwo_sp] at hi ⊢
  split
  · rfl
  · exact hlive i (by omega)

/-! ### What an instruction reads -/

theorem SameButDead.top_eq (hsp : s.sp ≠ 0) : s'.top = s.top := by
  obtain ⟨c, rfl, hlive⟩ := sameButDead_iff.mp h
  exact hlive (s.sp - 1) (by omega)

theorem SameButDead.nextTop_eq (hsp : 2 ≤ s.sp) : s'.nextTop = s.nextTop := by
  obtain ⟨c, rfl, hlive⟩ := sameButDead_iff.mp h
  exact hlive (s.sp - 2) (by omega)

theorem SameButDead.status_eq : s'.status = s.status := by rw [h.2]

end updates

/-- The fetch reads the store and the parameters, not the stack. -/
theorem fetchBytes_withStack (s : State) (c : Cells 32) (n a : Nat) :
    State.fetchBytes { s with stack := c } n a = s.fetchBytes n a := by
  apply List.ext_getElem?
  intro k
  simp only [State.fetchBytes_getElem?]
  rfl

theorem SameButDead.fetch_eq {s s' : State} (h : SameButDead s s') : fetch s' = fetch s := by
  rw [h.2, fetch, fetch, State.window, fetchBytes_withStack]
  rfl

/-- Whether an instruction faults depends on live entries alone: it looks at the top only where there is one. -/
theorem SameButDead.ownFault?_eq {s s' : State} (h : SameButDead s s') (i : Instr) :
    ownFault? i s' = ownFault? i s := by
  by_cases hsp : s.sp = 0
  · rw [h.2]
    cases i <;> simp [ownFault?, hsp]
  · have htop := h.top_eq hsp
    obtain ⟨c, rfl, -⟩ := sameButDead_iff.mp h
    cases i <;> simp only [ownFault?, htop]

/-! ### The simulation -/

/-- The same instruction has the same effect on two states that differ in dead entries alone. -/
theorem Effect.sameButDead {i : Instr} {s s' t : State} (he : Effect i s t) (h : SameButDead s s') :
    ∃ t', Effect i s' t' ∧ SameButDead t t' := by
  have hfault := h.ownFault?_eq i
  have htop := h.top_eq
  have hnext := h.nextTop_eq
  obtain ⟨c, rfl, -⟩ := sameButDead_iff.mp h
  cases he with
  | raises k hk => exact ⟨_, .raises k (hfault.trans hk), h.raise k⟩
  | nop => exact ⟨_, .nop, h.goto _⟩
  | push v hne => exact ⟨_, .push v hne, (h.pushWord _).goto _⟩
  | pop hne => exact ⟨_, .pop hne, h.dropTop.goto _⟩
  | load r hr hne => exact ⟨_, .load r hr hne, (h.pushWord _).goto _⟩
  | store r hr hne =>
    exact ⟨_, .store r hr hne, by rw [htop hne]; exact (h.setReg _ _).dropTop.goto _⟩
  | jmp a ha => exact ⟨_, .jmp a ha, h.goto _⟩
  | taken _ a hi ha hne => exact ⟨_, .taken i a (by rwa [htop hne]) ha hne, h.dropTop.goto _⟩
  | notTaken _ a hi hne => exact ⟨_, .notTaken i a (by rwa [htop hne]) hne, h.dropTop.goto _⟩
  | binary _ v hi hle =>
    have hne : s.sp ≠ 0 := by omega
    exact ⟨_, .binary i v (by rwa [htop hne, hnext hle]) hle, (h.replaceTopTwo v).goto _⟩
  | print hne => exact ⟨_, .print hne, by rw [htop hne]; exact (h.emit _).dropTop.goto _⟩
  | stop => exact ⟨_, .stop, (h.goto _).halt⟩

theorem SameButDead.exists_step {s s' t : State} (h : SameButDead s s') (hs : step s = .next t) :
    ∃ t', step s' = .next t' ∧ SameButDead t t' := by
  obtain ⟨hrun, ⟨i, hi, he⟩ | ⟨k, hk, rfl⟩⟩ := step_cases hs
  · obtain ⟨t', he', ht⟩ := he.sameButDead h
    have hstep := step_ok (h.status_eq.trans hrun) (h.fetch_eq.trans hi)
    exact ⟨t', hstep.trans (exec_of_effect he'), ht⟩
  · exact ⟨_, step_error (h.status_eq.trans hrun) (h.fetch_eq.trans hk), h.raise k⟩

/-- Settles O45: one step is a simulation, and so is every number of them. -/
theorem deadEntriesAreUnobservable : Obligations.DeadEntriesAreUnobservable :=
  fun _ _ _ _ hdead hrun => run_simulation (fun _ _ _ h hs => h.exists_step hs) hdead hrun

end Sys2Proof.Machine
end

section
/-! PROOF. Who writes and reads the registers (O40, O41), the output (O42), the entries below the top two (O44) and the status
(O46). -/

namespace Sys2Proof.Machine

/-- Settles O40. -/
theorem onlyStoreWritesARegister : Obligations.OnlyStoreWritesARegister := by
  intro i s t h
  have he := exec_cases h
  refine ⟨fun hi r => by simp only [State.reg_eq_read, he.regs_eq hi], ?_⟩
  rintro r rfl k hk
  simp only [State.reg_eq_read]
  obtain hm | ⟨a, v, ha, -, hm⟩ := he.regs_cases
  · rw [hm]
  · have hka : k ≠ a := by
      rintro rfl
      exact hk (Instr.store.inj ha).symm
    rw [hm, Cells.read_write_other _ v hka]

theorem ownFault?_withRegs (i : Instr) (s : State) (x : Cells 32) :
    ownFault? i { s with regs := x } = ownFault? i s := by
  cases i <;> rfl

/-- An instruction that names no register has the same effect beside every register file. -/
theorem Effect.withRegs {i : Instr} {s t : State} (h : Effect i s t) (hload : ∀ r, i ≠ .load r)
    (hstore : ∀ r, i ≠ .store r) (x : Cells 32) :
    Effect i { s with regs := x } { t with regs := x } := by
  cases h with
  | raises k hk => exact .raises k ((ownFault?_withRegs i s x).trans hk)
  | nop => exact .nop
  | push v h => exact .push v h
  | pop h => exact .pop h
  | load r hr h => exact absurd rfl (hload r)
  | store r hr h => exact absurd rfl (hstore r)
  | jmp a ha => exact .jmp a ha
  | taken _ a hi ha h => exact .taken i a hi ha h
  | notTaken _ a hi h => exact .notTaken i a hi h
  | binary _ v hi h => exact .binary i v hi h
  | print h => exact .print h
  | stop => exact .stop

/-- STORE writes the top of the stack, whatever the registers hold. -/
theorem store_ignores_regs {r : Int} {s t : State} (h : Effect (.store r) s t) (x : Cells 32) :
    ∃ u, Effect (.store r) { s with regs := x } u ∧ u = { t with regs := u.regs } ∧
      ∀ k, (u.reg k = x.read k ∧ t.reg k = s.reg k) ∨ u.reg k = t.reg k := by
  cases h with
  | raises k hk =>
    exact ⟨_, .raises k ((ownFault?_withRegs _ s x).trans hk), rfl, fun _ => .inl ⟨rfl, rfl⟩⟩
  | store _ hr hne =>
    refine ⟨_, .store r hr hne, rfl, fun k => ?_⟩
    simp only [State.goto_reg, State.dropTop_reg, State.setReg_reg]
    split
    · exact .inr rfl
    · exact .inl ⟨rfl, rfl⟩
  | taken _ a hi => simp at hi
  | notTaken _ a hi => simp at hi
  | binary _ v hi => simp at hi

/-- Settles O41. -/
theorem onlyLoadReadsARegister : Obligations.OnlyLoadReadsARegister := by
  intro i s t x hload h
  have he := exec_cases h
  by_cases hstore : ∃ r, i = .store r
  · obtain ⟨r, rfl⟩ := hstore
    obtain ⟨u, hu, hframe⟩ := store_ignores_regs he x
    exact ⟨u, exec_of_effect hu, hframe⟩
  · have hns : ∀ r, i ≠ .store r := fun r hr => hstore ⟨r, hr⟩
    refine ⟨_, exec_of_effect (he.withRegs hload hns x), rfl, fun k => .inl ⟨rfl, ?_⟩⟩
    simp only [State.reg_eq_read, he.regs_eq hns]

/-- Settles O42; the last clause because `<+:` is transitive along the run. -/
theorem outputIsAppendOnly : Obligations.OutputIsAppendOnly := by
  refine ⟨fun i s t h => (exec_cases h).out_eq, fun s t => step_out_cases, fun n s t => ?_⟩
  refine run_related (R := fun s t => s.out <+: t.out) (fun s => List.prefix_rfl)
    (fun _ _ _ => List.IsPrefix.trans) (fun s t h => ?_)
  obtain hout | ⟨v, hout⟩ := step_out_cases h
  · exact hout ▸ List.prefix_rfl
  · exact hout ▸ List.prefix_append s.out [v]

/-- Settles O44, by the four moves of the stack. -/
theorem entriesBelowTheTopTwoAreKept : Obligations.EntriesBelowTheTopTwoAreKept :=
  fun _ _ h _ hk => (step_stackMove h).entry_kept hk

/-- Settles O46: a fault leaves Faulted, and STOP raises none. -/
theorem onlyStopHalts : Obligations.OnlyStopHalts := by
  intro i s t hrun h
  obtain ⟨hne, k, rfl⟩ | ⟨-, -, hstatus⟩ := (exec_cases h).control_cases
  · simp [hne]
  · rw [hstatus, hrun]
    split <;> simp [*]

/-- Settles O33. -/
theorem statusAndFaultCodes : Obligations.StatusAndFaultCodes := by
  refine ⟨rfl, rfl, fun s => rfl, fun s h => ?_, fun s k h => ?_, fun s => ?_⟩
  · simp only [State.faultKindPort, h]
  · simp only [State.faultKindPort, h]
  · rw [State.statusPort]
    cases s.status <;> decide

end Sys2Proof.Machine
end

section
/-! PROOF. The storages' canonical form (O51), the reset values (O48) and the boot order (O49). -/

namespace Sys2Proof.Machine

/-! ### Canonical storages are determined by what they read -/

section ext

variable {w : Nat}

theorem Cells.read_eq_zero_of_lt {c : Cells w} {a : Nat} (h : ∀ p ∈ c, a < p.1) : c.read a = 0 := by
  induction c with
  | nil => rfl
  | cons p rest ih =>
    have hp := h p List.mem_cons_self
    rw [Cells.read_cons, if_neg (by omega)]
    exact ih fun q hq => h q (List.mem_cons_of_mem _ hq)

theorem Cells.read_head (p : Nat × BitVec w) (rest : Cells w) : Cells.read (p :: rest) p.1 = p.2 :=
  if_pos rfl

/-- Below its first index a canonical storage reads 0. -/
theorem Cells.read_eq_zero_below_head {p : Nat × BitVec w} {rest : Cells w} {a : Nat}
    (h : Cells.wf (p :: rest)) (ha : a < p.1) : Cells.read (p :: rest) a = 0 :=
  Cells.read_eq_zero_of_lt
    (List.forall_mem_cons.mpr ⟨ha, fun q hq => ha.trans (Cells.wf_head_lt h q hq)⟩)

/-- A canonical storage that agrees with another at the other's first index begins there or before. -/
theorem Cells.head_le_head {p q : Nat × BitVec w} {c d : Cells w} (hc : Cells.wf (p :: c))
    (hd : Cells.wf (q :: d)) (h : Cells.read (p :: c) p.1 = Cells.read (q :: d) p.1) : q.1 ≤ p.1 := by
  by_contra hlt
  rw [Cells.read_head, Cells.read_eq_zero_below_head hd (Nat.not_le.mp hlt)] at h
  exact hc.2 p List.mem_cons_self h

theorem Cells.ext_of_wf {c d : Cells w} (hc : c.wf) (hd : d.wf) (h : ∀ a, c.read a = d.read a) :
    c = d := by
  induction c generalizing d with
  | nil =>
    cases d with
    | nil => rfl
    | cons q d => exact absurd ((Cells.read_head q d).symm.trans (h q.1).symm) (hd.2 q List.mem_cons_self)
  | cons p c ih =>
    cases d with
    | nil => exact absurd ((Cells.read_head p c).symm.trans (h p.1)) (hc.2 p List.mem_cons_self)
    | cons q d =>
      have hkey : p.1 = q.1 :=
        le_antisymm (Cells.head_le_head hd hc (h q.1).symm) (Cells.head_le_head hc hd (h p.1))
      have hpq : p = q := by
        refine Prod.ext hkey ?_
        rw [← Cells.read_head p c, h, hkey, Cells.read_head]
      subst hpq
      refine congrArg (p :: ·) (ih (Cells.wf_tail hc) (Cells.wf_tail hd) fun a => ?_)
      obtain ⟨k, v⟩ := p
      by_cases ha : k = a
      · subst ha
        rw [Cells.read_eq_zero_of_lt (Cells.wf_head_lt hc),
          Cells.read_eq_zero_of_lt (Cells.wf_head_lt hd)]
      · simpa only [Cells.read_cons, if_neg ha] using h a

end ext

/-- Settles O51. -/
theorem storageIsExtensional : Obligations.StorageIsExtensional :=
  fun _ c _ hc hd => ⟨Cells.ext_of_wf hc hd, fun a v =>
    ⟨Cells.write_wf hc a v, c.read_write_same a v, fun _ hk => c.read_write_other v hk⟩⟩

/-! ### Reset and boot -/

/-- Settles O48. -/
theorem resetValues : Obligations.ResetValues :=
  ⟨fun _ => ⟨rfl, rfl, rfl, fun _ => rfl, fun _ => rfl, rfl, rfl, rfl, rfl⟩,
    rfl, rfl, rfl, rfl, rfl⟩

theorem placeBytes_cons {s : State} {a : Nat} (ha : a < s.cfg.progCap) (b : Byte) (bs : List Byte) :
    s.placeBytes a (b :: bs) = (s.loadByte a b).placeBytes (a + 1) bs := if_pos ha

/-- What the store reads after bytes were placed that all fit: the bytes where they stand, and elsewhere what it read before. -/
theorem read_placeBytes {s : State} {a : Nat} {bs : List Byte} (h : a + bs.length ≤ s.cfg.progCap)
    (k : Nat) : (s.placeBytes a bs).imem.read k =
      if a ≤ k then bs[k - a]?.getD (s.imem.read k) else s.imem.read k := by
  induction bs generalizing s a with
  | nil => simp [State.placeBytes]
  | cons b bs ih =>
    rw [List.length_cons] at h
    rw [placeBytes_cons (by omega), ih (by simp only [State.loadByte_cfg]; omega),
      State.loadByte_imem, Cells.read_write]
    rcases Nat.lt_trichotomy k a with hk | rfl | hk
    · simp [show ¬ a + 1 ≤ k by omega, show ¬ a ≤ k by omega, show k ≠ a by omega]
    · simp
    · have hsub : k - a = (k - (a + 1)) + 1 := by omega
      simp [show a + 1 ≤ k by omega, show a ≤ k by omega, show k ≠ a by omega, hsub]

theorem onAll_cons_next {e : HostEvent} {b b' : Block} (h : b.on e = .next b') (es : List HostEvent) :
    Block.onAll (e :: es) b = Block.onAll es b' := by
  simp only [Block.onAll, h]

theorem on_loadByte_reset {s : State} {a : Nat} (ha : a < s.cfg.progCap) (d : Byte) :
    Block.on (.loadByte a d) { rst := true, core := s } =
      .next { rst := true, core := s.loadByte a d } := by
  simp [Block.on, ha]

theorem on_setProgLen_reset {s : State} {n : Nat} (hn : n ≤ s.cfg.progCap) :
    Block.on (.setProgLen n) { rst := true, core := s } =
      .next { rst := true, core := s.setProgLen n } := by
  simp [Block.on, hn]

/-- The host's strobes under reset place the bytes; the events after them follow. -/
theorem onAll_loadEvents {s : State} {a : Nat} {bs : List Byte}
    (h : a + bs.length ≤ s.cfg.progCap) (es : List HostEvent) :
    Block.onAll (loadEvents a bs ++ es) { rst := true, core := s } =
      Block.onAll es { rst := true, core := s.placeBytes a bs } := by
  induction bs generalizing s a with
  | nil => rfl
  | cons d ds ih =>
    rw [List.length_cons] at h
    have ha : a < s.cfg.progCap := by omega
    rw [loadEvents, List.cons_append, onAll_cons_next (on_loadByte_reset ha d),
      ih (by simp only [State.loadByte_cfg]; omega), placeBytes_cons ha]

@[simp] theorem placeBytes_cfg (s : State) (a : Nat) (bs : List Byte) :
    (s.placeBytes a bs).cfg = s.cfg := by rw [State.placeBytes_eq]

@[simp] theorem initial_cfg (c : Config) : (State.initial c).cfg = c := rfl

/-- The bytes the boot order takes from its source fit. -/
theorem initial_fits (c : Config) (src : List Byte) :
    0 + (src.take c.progCap).length ≤ (State.initial c).cfg.progCap := by simp

/-- The state the boot order leaves. -/
def bootState (c : Config) (src : List Byte) : State :=
  ((State.initial c).placeBytes 0 (src.take c.progCap)).setProgLen (min src.length c.progCap)

theorem bootState_eq (c : Config) (src : List Byte) :
    bootState c src = { State.initial c with
      imem := (bootState c src).imem, progLen := min src.length c.progCap } := by
  rw [bootState, State.placeBytes_eq]
  rfl

@[simp] theorem bootState_cfg (c : Config) (src : List Byte) : (bootState c src).cfg = c :=
  placeBytes_cfg _ _ _

@[simp] theorem bootState_progLen (c : Config) (src : List Byte) :
    (bootState c src).progLen = min src.length c.progCap := rfl

theorem onAll_bootEvents {b : Block} (hb : b.rst = false) (src : List Byte) :
    Block.onAll (bootEvents b.core.cfg src) b =
      .next { rst := false, core := bootState b.core.cfg src } := by
  have hreset : b.on .assertReset = .next { rst := true, core := State.initial b.core.cfg } := by
    simp [Block.on, hb]
  rw [bootEvents, onAll_cons_next hreset, onAll_loadEvents (initial_fits b.core.cfg src),
    onAll_cons_next (on_setProgLen_reset (by simp))]
  rfl

/-- The loaded bytes, and zero padding above them (20_memory.md R34). -/
theorem bootState_imemByte? {c : Config} {src : List Byte} {a : Nat} (ha : a < c.progCap) :
    (bootState c src).imemByte? a = some (src[a]?.getD 0) := by
  have hread : (bootState c src).imem.read a = src[a]?.getD 0 := by
    rw [bootState, State.setProgLen_imem, read_placeBytes (initial_fits c src)]
    simp [State.initial, ha]
  rw [State.imemByte?_of_lt (by rwa [bootState_cfg]), hread]

/-- Settles O49. -/
theorem bootLoadsTheProgram : Obligations.BootLoadsTheProgram := by
  intro b src hb
  refine ⟨_, onAll_bootEvents hb src, bootState_cfg _ _, by simp, fun a ha => ?_,
    fun a hle ha => ?_, ?_⟩
  · rw [bootState_progLen] at ha
    rw [bootState_imemByte? (by omega), List.getElem?_eq_getElem (by omega)]
    rfl
  · rw [bootState_progLen] at hle
    rw [bootState_cfg] at ha
    rw [bootState_imemByte? ha, List.getElem?_eq_none (by omega)]
    rfl
  · rw [bootState_eq]
    exact ⟨rfl, rfl, fun _ => rfl, fun _ => rfl, rfl, rfl, rfl, rfl⟩

end Sys2Proof.Machine
end


section
/-! PROOF. The program is fixed for a run (O39): `SameProgram` is reflexive and transitive, and every step respects it. -/

namespace Sys2Proof.Machine

/-- The bytes that exist are determined by the parameters and the instruction store. -/
theorem State.imemByte?_congr {s t : State} (hcfg : t.cfg = s.cfg) (himem : t.imem = s.imem) (a : Nat) :
    t.imemByte? a = s.imemByte? a := by
  rw [State.imemByte?, hcfg, himem, State.imemByte?]

theorem SameProgram.refl (s : State) : SameProgram s s := ⟨fun _ => rfl, rfl, rfl⟩

theorem SameProgram.trans {s u t : State} (hsu : SameProgram s u) (hut : SameProgram u t) :
    SameProgram s t := by
  obtain ⟨hbytes, hlen, hcfg⟩ := hsu
  obtain ⟨hbytes', hlen', hcfg'⟩ := hut
  exact ⟨fun a => (hbytes' a).trans (hbytes a), hlen'.trans hlen, hcfg'.trans hcfg⟩

theorem step_sameProgram {s t : State} (h : step s = .next t) : SameProgram s t := by
  obtain ⟨hcfg, himem, hlen⟩ := step_program_eq h
  exact ⟨State.imemByte?_congr hcfg himem, hlen, hcfg⟩

/-- Settles O39, by induction over the steps of the run. -/
theorem programIsFixedForTheRun : Obligations.ProgramIsFixedForTheRun :=
  fun _ _ _ => run_related SameProgram.refl (fun _ _ _ => SameProgram.trans)
    fun _ _ => step_sameProgram

end Sys2Proof.Machine
end

section
/-! PROOF. The encoder and the decoder undo each other (O1, O2), the opcode table (O3, O4), and signed little-endian operands
(O6). -/

namespace Sys2Proof.Machine

/-! ### Instructions and their operands -/

/-- An instruction is its operation and its operand (30_encoding.md R48). -/
@[simp] theorem ofOperand_opcode_operand (i : Instr) : Instr.ofOperand i.opcode i.operand = i := by
  cases i <;> rfl

theorem operand_eq_zero_of_width {i : Instr} (h : i.opcode.width = 0) : i.operand = 0 := by
  cases i with
  | push | load | store | jmp | jz | jnz => cases h
  | _ => rfl

/-- Well-formed means that the operand fits as many bytes as the operation's width says (R47, R60). -/
theorem wf_eq_fitsSigned (i : Instr) : i.wf = fitsSigned i.opcode.width i.operand := by
  cases i <;> rfl

/-- The encoding of an operation with an operand; at width 0 there is no operand byte to write (R46). -/
theorem encode_ofOperand (m : OpcodeMap) (op : Opcode) (v : Int) :
    encode m (.ofOperand op v) = m.byteOf op :: leBytes op.width v := by
  cases op <;> rfl

/-- The operand bytes of a well-formed instruction are read back as its operand. -/
theorem leInt_operandBytes {i : Instr} (h : i.wf = true) :
    leInt (leBytes i.opcode.width i.operand) = i.operand := by
  rcases Nat.eq_zero_or_pos i.opcode.width with h0 | hpos
  · rw [h0, operand_eq_zero_of_width h0]
    rfl
  · exact leInt_leBytes_of_fits hpos (wf_eq_fitsSigned i ▸ h)

/-! ### Decoding and encoding -/

/-- Settles O1: the opcode byte stands for the operation, and the operand bytes are as many as its width says. -/
theorem decodeOfEncodeGivesTheInstruction : Obligations.DecodeOfEncodeGivesTheInstruction := by
  intro m hm i hi rest
  have hlen := Laws.leBytes_length i.opcode.width i.operand
  rw [encode, List.cons_append, decode_cons (opcode?_byteOf hm _), if_neg (by simp [hlen]),
    List.take_left' hlen, List.drop_left' hlen, leInt_operandBytes hi, ofOperand_opcode_operand]

/-- Settles O2: the operand read from as many bytes fits them and is written back as those bytes. -/
theorem decodedBytesAreTheEncoding : Obligations.DecodedBytesAreTheEncoding := by
  intro m bytes i rest h
  obtain ⟨b, op, tl, rfl, hop, hw, rfl, rfl⟩ := decode_instr h
  have hlen : (tl.take op.width).length = op.width := List.length_take_of_le hw
  have hfits := fits_leInt (tl.take op.width)
  have hback := leBytes_leInt (tl.take op.width)
  rw [hlen] at hfits hback
  refine ⟨ofOperand_wf hfits, ?_⟩
  rw [encode_ofOperand, hback, byteOf_of_opcode? hop, List.cons_append, List.take_append_drop]

/-! ### The opcode table -/

/-- Settles O3. -/
theorem wordsOfTheTableDecode : Obligations.WordsOfTheTableDecode := by
  unfold Obligations.WordsOfTheTableDecode
  decide

/-- Settles O4. -/
theorem opcodeBytesAndWidths : Obligations.OpcodeBytesAndWidths :=
  ⟨by decide, Opcode.mem_all, by decide⟩

/-- A byte is no opcode when no operation has it (R51). -/
theorem opcode?_eq_none_iff {m : OpcodeMap} {b : Byte} :
    m.opcode? b = none ↔ ∀ op, m.byteOf op ≠ b := by
  simp [OpcodeMap.opcode?, List.find?_eq_none, Opcode.mem_all]

/-- The bytes of R49 are those below 0x0E. -/
theorem exists_standard_byteOf_iff {b : Byte} :
    (∃ op, OpcodeMap.standard.byteOf op = b) ↔ b.toNat < 0x0E := by
  constructor
  · rintro ⟨op, rfl⟩
    cases op <;> decide
  · have hall : ∀ k < 0x0E, ∃ op ∈ Opcode.all, (OpcodeMap.standard.byteOf op).toNat = k := by decide
    intro hb
    obtain ⟨op, -, hop⟩ := hall b.toNat hb
    exact ⟨op, BitVec.eq_of_toNat_eq hop⟩

theorem standard_opcode?_eq_none_iff {b : Byte} :
    OpcodeMap.standard.opcode? b = none ↔ 0x0E ≤ b.toNat := by
  rw [opcode?_eq_none_iff, ← not_exists, exists_standard_byteOf_iff, Nat.not_lt]

/-! ### The operand's value -/

/-- The unsigned little-endian value as a sum over the bytes (20_memory.md R36), the first byte having index `k`. -/
theorem sum_zipIdx_eq_leNat (bs : List Byte) (k : Nat) :
    ((bs.zipIdx k).map fun p => p.1.toNat * 256 ^ p.2).sum = 256 ^ k * leNat bs := by
  induction bs generalizing k with
  | nil => rfl
  | cons b bs ih =>
    rw [List.zipIdx_cons, List.map_cons, List.sum_cons, ih, leNat]
    ring

/-- The signed and the unsigned value of the same bytes are congruent. -/
theorem dvd_leInt_sub_leNat (bs : List Byte) : (256 ^ bs.length : Int) ∣ leInt bs - leNat bs := by
  have h := leNat_leBytes bs.length (leInt bs)
  rw [leBytes_leInt] at h
  rw [h]
  exact Int.dvd_self_sub_emod

/-- Settles O6. -/
theorem operandIsSignedLittleEndian : Obligations.OperandIsSignedLittleEndian := by
  intro bs _
  refine ⟨(fits_iff _ _).mp (fits_leInt bs), ?_⟩
  rw [sum_zipIdx_eq_leNat, pow_zero, one_mul]
  exact dvd_leInt_sub_leNat bs

end Sys2Proof.Machine
end

section
/-! PROOF. The instruction cycle (O5, O7, O8, O9, O10, O11, O12) and the run through zero padding (O47). -/

namespace Sys2Proof.Machine

open Sys2Proof.Claims

variable {s : State}

/-! ### The fetch of what the bytes at `ip` decode to -/

/-- The effect of a raised fault (60_exceptions.md R86). -/
theorem State.raise_faultLeaves (s : State) (k : FaultKind) : FaultLeaves k s (s.raise k) :=
  ⟨rfl, rfl, rfl, rfl, rfl, rfl, fun _ => rfl, fun _ => rfl, fun _ => rfl, rfl, rfl⟩

/-- A running block whose fetch fails raises the fault and writes nothing else. -/
theorem exists_step_faultLeaves {k : FaultKind} (hs : s.status = .running) (h : fetch s = .error k) :
    ∃ t, step s = .next t ∧ FaultLeaves k s t :=
  ⟨s.raise k, step_error hs h, s.raise_faultLeaves k⟩

theorem fetch_of_decode {i : Instr} {rest : List Byte}
    (h : decode s.cfg.opcodes s.window = .instr i rest) : fetch s = .ok i := by
  rw [fetch, h]

/-- Settles O7. -/
theorem stepRunsTheDecodedInstruction : Obligations.StepRunsTheDecodedInstruction :=
  fun _ _ _ hs h => step_ok hs (fetch_of_decode h)

/-- Bytes stored from `ip` on, no more than the fetch reads, stand at the head of the window. -/
theorem window_eq_append {bs : List Byte} (hlen : bs.length ≤ maxInstrBytes)
    (h : ∀ k, k < bs.length → s.imemByte? (s.ip + k) = bs[k]?) :
    s.window = bs ++ s.window.drop bs.length := by
  have htake : s.window.take bs.length = bs := by
    apply List.ext_getElem?
    intro k
    rw [List.getElem?_take]
    split
    · next hk => rw [State.window, State.fetchBytes_getElem?, if_pos (hk.trans_le hlen), h k hk]
    · next hk => exact (List.getElem?_eq_none (Nat.not_lt.mp hk)).symm
  conv_lhs => rw [← List.take_append_drop bs.length s.window, htake]

/-- Settles O8: the window begins with the encoding, which decodes to the instruction. -/
theorem stepRunsTheInstructionStoredAtIp : Obligations.StepRunsTheInstructionStoredAtIp := by
  intro s i hs hm hi hbytes
  have hlen : (encode s.cfg.opcodes i).length = i.opcode.length := Laws.EncodeLength.of_leBytes i _
  have hfive : i.opcode.length ≤ maxInstrBytes := by
    have := width_le_four i.opcode
    rw [Opcode.length, maxInstrBytes]
    omega
  have hwin := window_eq_append (hlen.trans_le hfive) (fun k hk => hbytes k (hlen ▸ hk))
  have hdec := decodeOfEncodeGivesTheInstruction _ hm i hi (s.window.drop (encode s.cfg.opcodes i).length)
  rw [← hwin] at hdec
  exact step_ok hs (fetch_of_decode hdec)

/-! ### Every step of a running block -/

/-- Settles O5. -/
theorem illegalOpcodeBytesRaiseUnknownOpcode : Obligations.IllegalOpcodeBytesRaiseUnknownOpcode := by
  refine ⟨fun b => standard_opcode?_eq_none_iff.symm, fun b rest hb => ?_, fun s b hs hm hbyte hb => ?_⟩
  · rw [decode, standard_opcode?_eq_none_iff.mpr hb]
  · exact exists_step_faultLeaves hs (fetch_unknown hbyte (hm ▸ standard_opcode?_eq_none_iff.mpr hb))

/-- Settles O9, by the four laws of the fetch. -/
theorem stepFollowsTheInstructionCycle : Obligations.StepFollowsTheInstructionCycle :=
  fun _ hs =>
    ⟨fun hend => exists_step_faultLeaves hs (fetch_past_end hend),
     fun _ hb hop => exists_step_faultLeaves hs (fetch_unknown hb hop),
     fun _ _ hb hop =>
      ⟨fun hpast => exists_step_faultLeaves hs (fetch_truncated hb hop hpast),
       fun hfit => step_ok hs (fetch_whole hb hop hfit)⟩⟩

/-- Settles O10, by the four results of decode. -/
theorem runningBlockAlwaysSteps : Obligations.RunningBlockAlwaysSteps := by
  have hexec : ∀ (i : Instr) (s : State), ∃ t, exec i s = .next t := fun i s =>
    (exec_effect i s).imp fun _ h => h.1
  refine ⟨fun s hs => ?_, hexec⟩
  cases hd : decode s.cfg.opcodes s.window with
  | instr i rest =>
    obtain ⟨t, ht⟩ := hexec i s
    exact ⟨t, (stepRunsTheDecodedInstruction s i rest hs hd).trans ht,
      (decodedBytesAreTheEncoding _ _ i rest hd).1, ht⟩
  | noOpcode => exact exists_step_faultLeaves hs (by rw [fetch, hd])
  | unknownOpcode b => exact exists_step_faultLeaves hs (by rw [fetch, hd])
  | truncated op => exact exists_step_faultLeaves hs (by rw [fetch, hd])

/-- Settles O11. -/
theorem noStepAfterTheRunHasEnded : Obligations.NoStepAfterTheRunHasEnded :=
  fun _ hs _ h => hs (step_cases h).1

/-! ### Where `ip` ends -/

/-- An instruction that leaves the block running ends just past itself or takes a jump (30_encoding.md R56). -/
theorem Effect.ip_of_running {i : Instr} {t : State} (h : Effect i s t) (ht : t.status = .running) :
    t.ip = s.ip + i.opcode.length ∨ (∃ a, i = .jmp a) ∨
      (∃ a, i = .jz a ∧ s.top.toInt = 0) ∨ (∃ a, i = .jnz a ∧ s.top.toInt ≠ 0) := by
  cases h with
  | raises k hk => cases ht
  | stop => cases ht
  | jmp a ha => exact .inr (.inl ⟨a, rfl⟩)
  | taken _ a hi ha h =>
    obtain ⟨rfl, hz⟩ | ⟨rfl, hz⟩ := hi
    · exact .inr (.inr (.inl ⟨a, rfl, (isZero_iff _).mp hz⟩))
    · exact .inr (.inr (.inr ⟨a, rfl, fun h0 => by simp [(isZero_iff _).mpr h0] at hz⟩))
  | _ => exact .inl rfl

/-- Settles O12. -/
theorem sequentialAdvance : Obligations.SequentialAdvance := by
  intro s i rest hs hd
  have hfetch := fetch_of_decode hd
  have hnext : s.ip + 1 + i.opcode.width = s.ip + i.opcode.length := Nat.add_assoc ..
  rw [hnext]
  refine ⟨fetch_ok_bound hfetch, fun t ht hrun => ?_⟩
  rw [step_ok hs hfetch] at ht
  obtain hip | ⟨a, rfl⟩ | ⟨a, rfl, hz⟩ | ⟨a, rfl, hz⟩ := (exec_cases ht).ip_of_running hrun
  · exact ⟨fun _ _ _ => hip, fun _ _ _ => hip, fun _ _ _ => hip⟩
  · exact ⟨fun h _ _ => absurd rfl (h a), nofun, nofun⟩
  · exact ⟨fun _ h _ => absurd rfl (h a), fun _ _ h => absurd hz h, nofun⟩
  · exact ⟨fun _ _ h => absurd rfl (h a), nofun, fun _ _ h => absurd h hz⟩

/-! ### Padding -/

/-- A zero byte is NOP under every opcode map the spec allows (00_scope.md R11, 30_encoding.md R54). -/
theorem step_zero_byte (hs : s.status = .running) (hm : s.cfg.opcodes.wf)
    (hb : s.imemByte? s.ip = some 0) : step s = .next (s.goto (s.ip + 1)) := by
  have hop : s.cfg.opcodes.opcode? 0 = some .nop := hm.1 ▸ opcode?_byteOf hm .nop
  exact step_ok hs (fetch_whole hb hop (ip_lt_of_byte hb))

/-- Over zero bytes the first `n` steps of a run only advance `ip`. -/
theorem run_zero_bytes (hs : s.status = .running) (hm : s.cfg.opcodes.wf) (n k : Nat)
    (hzero : ∀ a, s.ip ≤ a → a < s.ip + n → s.imemByte? a = some 0) :
    Sys2Proof.core.run (n + k) s = Sys2Proof.core.run k (s.goto (s.ip + n)) := by
  induction n generalizing s with
  | zero => rw [Nat.zero_add]; rfl
  | succ n ih =>
    have hstep := step_zero_byte hs hm (hzero s.ip le_rfl (by omega))
    have hrest := ih (s := s.goto (s.ip + 1)) hs hm fun a hle hlt =>
      hzero a (Nat.le_of_succ_le hle) (by rw [State.goto_ip] at hlt; omega)
    rw [Nat.add_right_comm, run_succ_of_step hstep, hrest, State.goto_ip, Nat.add_right_comm,
      Nat.add_assoc]
    rfl

/-- Settles O47. -/
theorem paddingRunsAsNopsThenEndsTheProgram : Obligations.PaddingRunsAsNopsThenEndsTheProgram := by
  intro s hs hm hip hzero
  refine ⟨fun n hn => run_zero_bytes hs hm n 0 fun a hle hlt => hzero a hle (by omega), ?_⟩
  have hend : step (s.goto s.cfg.progCap) = .next ((s.goto s.cfg.progCap).raise .endOfProgram) :=
    step_error hs (fetch_past_end le_rfl)
  rw [run_zero_bytes hs hm _ 1 fun a hle hlt => hzero a hle (by omega), Nat.add_sub_cancel' hip,
    run_succ_of_step hend]
  rfl

end Sys2Proof.Machine
end

section
/-! PROOF. The text of a label-free program assembles to its bytes (O52), and so does the disassembly of one instruction (O53).
The words of a text are found by the library's `List.splitOnP`, which the model's `splitAt` is. -/

namespace Sys2Proof.Machine

open Sys2Proof.Claims

/-! ### Characters -/

/-- The characters of mnemonics and of signed decimals (30_encoding.md R59, R60). -/
def isWordChar (c : Char) : Bool := c.isUpper || c.isDigit || c == '-'

/-- None of them ends a line or a word, and none begins a comment (R59). -/
theorem isWordChar_separator {c : Char} (h : c ∈ ['\n', ' ', '\t', '\r', ';']) : isWordChar c = false := by
  simp only [List.mem_cons, List.not_mem_nil, or_false] at h
  obtain rfl | rfl | rfl | rfl | rfl := h <;> rfl

theorem mnemonic_isWordChar (op : Opcode) : ∀ c ∈ mnemonic op, isWordChar c = true :=
  List.all_eq_true.mp (by cases op <;> rfl)

theorem toDigits_isDigit (n : Nat) : ∀ c ∈ Nat.toDigits 10 n, c.isDigit = true := fun _ hc =>
  Nat.isDigit_of_mem_toDigits (by decide) le_rfl hc

theorem showInt_isWordChar (v : Int) : ∀ c ∈ showInt v, isWordChar c = true := by
  have hdigits : ∀ c ∈ Nat.toDigits 10 v.natAbs, isWordChar c = true := fun c hc => by
    simp [isWordChar, toDigits_isDigit _ c hc]
  unfold showInt
  split
  · exact List.forall_mem_cons.mpr ⟨by decide, hdigits⟩
  · exact hdigits

theorem mnemonic_ne_nil (op : Opcode) : mnemonic op ≠ [] := by cases op <;> decide

theorem showInt_ne_nil (v : Int) : showInt v ≠ [] := by
  unfold showInt
  split
  · exact List.cons_ne_nil _ _
  · exact Nat.toDigits_ne_nil

/-! ### Numbers -/

theorem digit?_of_isDigit {c : Char} (h : c.isDigit = true) : digit? c = some (c.toNat - 48) :=
  if_pos (Char.isDigit_iff_toNat.mp h)

/-- Decimal digits are read as the library reads them. -/
theorem digitsFrom_ten {ds : List Char} (h : ∀ c ∈ ds, c.isDigit = true) (acc : Nat) :
    digitsFrom 10 acc ds = some (Nat.ofDigitChars 10 ds acc) := by
  induction ds generalizing acc with
  | nil => rfl
  | cons c cs ih =>
    obtain ⟨hc, hcs⟩ := List.forall_mem_cons.mp h
    have hle : c.toNat ≤ 57 := (Char.isDigit_iff_toNat.mp hc).2
    rw [digitsFrom, digit?_of_isDigit hc]
    simp only
    rw [if_pos (by omega), ih hcs, Nat.ofDigitChars_cons, Nat.mul_comm]
    rfl

/-- A number written in decimal digits alone is read as decimal: it has no `x`. -/
theorem parseNat?_of_digits {ds : List Char} (hne : ds ≠ []) (h : ∀ c ∈ ds, c.isDigit = true) :
    parseNat? ds = digitsFrom 10 0 ds := by
  unfold parseNat?
  split
  · exact absurd rfl hne
  · exact absurd (h 'x' (by simp)) (by decide)
  · exact absurd (h 'x' (by simp)) (by decide)
  · rfl

theorem parseNat?_toDigits (n : Nat) : parseNat? (Nat.toDigits 10 n) = some n := by
  rw [parseNat?_of_digits Nat.toDigits_ne_nil (toDigits_isDigit n), digitsFrom_ten (toDigits_isDigit n),
    Nat.ofDigitChars_ten_toDigits]

/-- It has no minus sign either. -/
theorem parseInt?_of_digits {ds : List Char} (h : ∀ c ∈ ds, c.isDigit = true) :
    parseInt? ds = (parseNat? ds).map (fun n : Nat => (n : Int)) := by
  unfold parseInt?
  split
  · exact absurd (h '-' (by simp)) (by decide)
  · rfl

/-- A signed decimal is read back as written (R60, R63). -/
theorem parseInt?_showInt (v : Int) : parseInt? (showInt v) = some v := by
  unfold showInt
  split
  · next hneg =>
    rw [parseInt?, parseNat?_toDigits, Option.map_some]
    congr 1
    omega
  · next hpos =>
    rw [parseInt?_of_digits (toDigits_isDigit _), parseNat?_toDigits, Option.map_some]
    congr 1
    omega

/-! ### Words of a line -/

theorem splitAt_eq_splitOnP (p : Char → Bool) (l : List Char) : splitAt p l = l.splitOnP p := by
  induction l with
  | nil => simp [splitAt]
  | cons c cs ih =>
    rw [splitAt, ih, List.splitOnP_cons_eq_if_modifyHead]
    cases h : cs.splitOnP p with
    | nil => exact absurd h (List.splitOnP_ne_nil p cs)
    | cons w ws => rfl

/-- A word by itself is the one word of its line. -/
theorem lineWords_word {w : List Char} (hne : w ≠ []) (h : ∀ c ∈ w, isWordChar c = true) :
    lineWords w = [w] := by
  have hsep : ∀ c ∈ w, c ∉ ['\n', ' ', '\t', '\r', ';'] := fun c hc hmem =>
    absurd (h c hc) (by simp [isWordChar_separator hmem])
  have hline : w.takeWhile (fun c => c != ';') = w :=
    List.takeWhile_eq_self_iff.mpr fun c hc => by simpa using fun heq => hsep c hc (by simp [heq])
  rw [lineWords, hline, splitAt_eq_splitOnP, List.splitOnP_eq_singleton]
  · simp [hne]
  · intro c hc
    have := hsep c hc
    simp_all

/-- A blank separates the words before it from those after it (R59). -/
theorem lineWords_append_blank {a : List Char} (h : ';' ∉ a) (b : List Char) :
    lineWords (a ++ ' ' :: b) = lineWords a ++ lineWords b := by
  have ha : ∀ c ∈ a, (c != ';') = true := fun c hc => by
    rw [bne_iff_ne]
    rintro rfl
    exact h hc
  have hline : (a ++ ' ' :: b).takeWhile (fun c => c != ';') =
      a ++ ' ' :: b.takeWhile (fun c => c != ';') := List.takeWhile_append_of_pos ha
  rw [lineWords, lineWords, lineWords, hline, List.takeWhile_eq_self_iff.mpr ha]
  simp only [splitAt_eq_splitOnP]
  rw [List.splitOnP_append_cons _ _ (by decide), List.filter_append]

/-- The words of an instruction: its mnemonic and its operand, if it has one (R59). -/
def wordsOf (i : Instr) : List (List Char) :=
  if i.opcode.width = 0 then [mnemonic i.opcode] else [mnemonic i.opcode, showInt i.operand]

/-- An instruction's text has no other character, so it holds no comment and ends no line. -/
theorem showInstr_chars (i : Instr) : ∀ c ∈ showInstr i, c = ' ' ∨ isWordChar c = true := by
  unfold showInstr
  split
  · exact fun c hc => .inr (mnemonic_isWordChar _ c hc)
  · intro c hc
    obtain hc | rfl | hc := by simpa using hc
    · exact .inr (mnemonic_isWordChar _ c hc)
    · exact .inl rfl
    · exact .inr (showInt_isWordChar _ c hc)

theorem semicolon_not_mem_showInstr (i : Instr) : ';' ∉ showInstr i := fun h =>
  absurd (showInstr_chars i _ h) (by decide)

theorem newline_not_mem_showInstr (i : Instr) : '\n' ∉ showInstr i := fun h =>
  absurd (showInstr_chars i _ h) (by decide)

theorem lineWords_showInstr (i : Instr) : lineWords (showInstr i) = wordsOf i := by
  have hmn := lineWords_word (mnemonic_ne_nil i.opcode) (mnemonic_isWordChar i.opcode)
  unfold showInstr wordsOf
  split
  · exact hmn
  · rw [lineWords_append_blank fun h => absurd (mnemonic_isWordChar _ _ h) (by decide), hmn,
      lineWords_word (showInt_ne_nil _) (showInt_isWordChar _)]
    rfl

/-! ### Words to items -/

theorem mnemonicOp?_mnemonic (op : Opcode) : mnemonicOp? (mnemonic op) = some op := by
  cases op <;> decide

theorem mnemonic_getLast?_ne_colon (op : Opcode) : (mnemonic op).getLast? ≠ some ':' := by
  cases op <;> decide

theorem operandOf?_showInt (op : Opcode) (v : Int) : operandOf? op (showInt v) = some (.num v) := by
  simp only [operandOf?, parseInt?_showInt]

/-- The words of an instruction give its one item (R62). -/
theorem itemsOf?_wordsOf_append (i : Instr) (ws : List (List Char)) :
    itemsOf? (wordsOf i ++ ws) = (itemsOf? ws).map (itemOf i :: ·) := by
  have hcolon := mnemonic_getLast?_ne_colon i.opcode
  unfold wordsOf itemOf
  split
  · next hw => simp [itemsOf?, hcolon, mnemonicOp?_mnemonic, hw]
  · next hw =>
    cases hws : itemsOf? ws <;>
      simp [itemsOf?, hcolon, mnemonicOp?_mnemonic, hw, operandOf?_showInt, hws]

theorem itemsOf?_flatMap_wordsOf (is : List Instr) :
    itemsOf? (is.flatMap wordsOf) = some (is.map itemOf) := by
  induction is with
  | nil => rfl
  | cons i is ih => rw [List.flatMap_cons, itemsOf?_wordsOf_append, ih]; rfl

theorem itemsOf?_lineWords_showInstr (i : Instr) : itemsOf? (lineWords (showInstr i)) = some [itemOf i] := by
  simpa [lineWords_showInstr] using itemsOf?_flatMap_wordsOf [i]

/-! ### Text to items -/

theorem textOf_cons_cons (sep : Char) (i j : Instr) (is : List Instr) :
    textOf sep (i :: j :: is) = showInstr i ++ sep :: textOf sep (j :: is) := by
  simp [textOf, List.intercalate_cons_cons]

/-- One instruction per line. -/
theorem parseLines?_showInstr (is : List Instr) :
    parseLines? (is.map showInstr) = some (is.map itemOf) := by
  induction is with
  | nil => rfl
  | cons i is ih => simp [parseLines?, itemsOf?_lineWords_showInstr, ih]

theorem parseText?_lines (is : List Instr) : parseText? (textOf '\n' is) = some (is.map itemOf) := by
  by_cases hne : is = []
  · subst hne
    rfl
  · have hlines : (textOf '\n' is).splitOn '\n' = is.map showInstr :=
      List.splitOn_intercalate '\n' (by simpa using fun i _ => newline_not_mem_showInstr i)
        (by simpa using hne)
    rw [parseText?, splitAt_eq_splitOnP, ← List.splitOn_eq_splitOnP, hlines, parseLines?_showInstr]

/-- Instructions separated by blanks stand on one line. -/
theorem newline_not_mem_textOf_blank (is : List Instr) : '\n' ∉ textOf ' ' is := by
  induction is with
  | nil => exact List.not_mem_nil
  | cons i is ih =>
    cases is with
    | nil => simpa [textOf] using newline_not_mem_showInstr i
    | cons j is => simpa [textOf_cons_cons, newline_not_mem_showInstr] using ih

theorem lineWords_textOf_blank (is : List Instr) : lineWords (textOf ' ' is) = is.flatMap wordsOf := by
  induction is with
  | nil => rfl
  | cons i is ih =>
    cases is with
    | nil => simp [textOf, lineWords_showInstr]
    | cons j is =>
      rw [textOf_cons_cons, lineWords_append_blank (semicolon_not_mem_showInstr i), ih,
        lineWords_showInstr, ← List.flatMap_cons]

theorem parseText?_blanks (is : List Instr) : parseText? (textOf ' ' is) = some (is.map itemOf) := by
  have hline : splitAt (fun c => c == '\n') (textOf ' ' is) = [textOf ' ' is] := by
    rw [splitAt_eq_splitOnP, ← List.splitOn_eq_splitOnP,
      List.splitOn_eq_singleton (newline_not_mem_textOf_blank is)]
  simp [parseText?, hline, parseLines?, lineWords_textOf_blank, itemsOf?_flatMap_wordsOf]

/-! ### Items to instructions -/

/-- An item without a label stands for its instruction, whatever labels there are (R60). -/
theorem instrOf?_itemOf {i : Instr} (h : i.wf = true) (labels : List (List Char × Nat)) :
    instrOf? labels i.opcode (if i.opcode.width = 0 then none else some (.num i.operand)) = some i := by
  split
  · next hw =>
    rw [instrOf?, if_pos hw, ← operand_eq_zero_of_width hw, ofOperand_opcode_operand]
  · next hw =>
    simp [instrOf?, hw, operandValue?, h]

theorem instrsOf?_map_itemOf {is : List Instr} (h : ∀ i ∈ is, i.wf = true)
    (labels : List (List Char × Nat)) : instrsOf? labels (is.map itemOf) = some is := by
  induction is with
  | nil => rfl
  | cons i is ih =>
    obtain ⟨hi, his⟩ := List.forall_mem_cons.mp h
    rw [List.map_cons, itemOf, instrsOf?, instrOf?_itemOf hi, ih his]

theorem labelsFrom_map_itemOf (a : Nat) (is : List Instr) : labelsFrom a (is.map itemOf) = [] := by
  induction is generalizing a with
  | nil => rfl
  | cons i is ih => exact ih _

theorem endsInInstr_map_itemOf (is : List Instr) : endsInInstr (is.map itemOf) = true := by
  induction is with
  | nil => rfl
  | cons i is ih =>
    cases is with
    | nil => rfl
    | cons j is => exact ih

theorem resolve?_map_itemOf {is : List Instr} (h : ∀ i ∈ is, i.wf = true) :
    resolve? (is.map itemOf) = some is := by
  rw [resolve?, labelsFrom_map_itemOf, endsInInstr_map_itemOf, if_pos (by simp),
    instrsOf?_map_itemOf h]

/-! ### Text to bytes -/

/-- Settles O52: the two ways to separate instructions give the same items. -/
theorem labelFreeProgramsAssemble : Obligations.LabelFreeProgramsAssemble := by
  intro is hwf
  have hres := resolve?_map_itemOf hwf
  refine ⟨hres, fun m sep hsep => ?_⟩
  have hparse : parseText? (textOf sep is) = some (is.map itemOf) := by
    obtain rfl | rfl := hsep
    · exact parseText?_lines is
    · exact parseText?_blanks is
  rw [assemble?, hparse]
  simp only [hres, Option.map_some]

/-- Settles O53: it is the program of one instruction. -/
theorem disassemblyAssemblesBack : Obligations.DisassemblyAssemblesBack := by
  intro m i hi
  have h := (labelFreeProgramsAssemble [i] (by simpa using hi)).2 m '\n' (.inl rfl)
  simpa [textOf, encodeAll] using h

end Sys2Proof.Machine
end

section
/-! PROOF. The stack operations NOP (O13), PUSH (O14) and POP (O15): what their bytes are, what the common fetch adds to them,
and what each path leaves. The lemmas on bytes, fetch bounds and frames speak of any instruction. -/

namespace Sys2Proof.Machine

open Sys2Proof.Claims

/-! ### The operand bytes of an encoding -/

/-- Byte `k` of a little-endian value is the byte listed at `k` (20_memory.md R36). -/
theorem leNat_div_mod (bs : List Byte) {k : Nat} (hk : k < bs.length) :
    leNat bs / 256 ^ k % 256 = bs[k].toNat := by
  induction bs generalizing k with
  | nil => exact absurd hk (Nat.not_lt_zero k)
  | cons b bs ih =>
    have hb := b.isLt
    cases k with
    | zero => rw [pow_zero, Nat.div_one, leNat, List.getElem_cons_zero]; omega
    | succ k =>
      have htail : leNat (b :: bs) / 256 = leNat bs := by rw [leNat]; omega
      rw [pow_succ', ← Nat.div_div_eq_div_mul, htail, List.getElem_cons_succ, ih]

theorem leNat_leBytes_eq_toNat (w : Nat) (v : Int) :
    leNat (leBytes w v) = (BitVec.ofInt (8 * w) v).toNat := by
  have hpow : ((2 ^ (8 * w) : Nat) : Int) = 256 ^ w := by rw [pow_mul]; norm_num
  rw [BitVec.toNat_ofInt, hpow, ← leNat_leBytes, Int.toNat_natCast]

/-- The operand bytes are those of the operand's two's-complement pattern, least significant first (30_encoding.md R46, R47). -/
theorem leBytes_eq_map_byteAt (w : Nat) (v : Int) :
    leBytes w v = (List.range w).map (byteAt (BitVec.ofInt (8 * w) v)) := by
  have hlen := Laws.leBytes_length w v
  refine List.ext_getElem (by simp [hlen]) fun k hk _ => BitVec.eq_of_toNat_eq ?_
  rw [← leNat_div_mod _ hk, leNat_leBytes_eq_toNat, List.getElem_map, List.getElem_range, byteAt,
    BitVec.extractLsb'_toNat, Nat.shiftRight_eq_div_pow, pow_mul]
  norm_num

/-! ### The common fetch of an opcode -/

theorem fetchEndsAtProgCap : FetchEndsAtProgCap :=
  fun _ hs hend => exists_step_faultLeaves hs (fetch_past_end hend)

/-- Every operation's fetch is bounded by PROG_CAP (20_memory.md R40). -/
theorem fetchBounded (op : Opcode) : FetchBounded op := by
  refine ⟨fetchEndsAtProgCap, fun s ⟨hs, hm, hbyte⟩ hend => ?_⟩
  rw [Opcode.length, ← Nat.add_assoc] at hend
  exact exists_step_faultLeaves hs (fetch_truncated hbyte (opcode?_byteOf hm op) hend)

/-! ### What the paths of an instruction leave -/

variable {s : State}

theorem raises_of_exec {i : Instr} {k : FaultKind} (h : exec i s = .next (s.raise k)) : Raises i k s :=
  ⟨_, h, s.raise_faultLeaves k⟩

/-- Going on at `a` changes nothing but `ip`. -/
theorem goto_frame (s : State) (a : Nat) :
    let t := s.goto a
    t.sp = s.sp ∧ SameEntries s t ∧ t.out = s.out ∧ SameRegs s t ∧ SameControl s t ∧ SameProgram s t :=
  ⟨rfl, fun _ => rfl, rfl, fun _ => rfl, ⟨rfl, rfl, rfl⟩, fun _ => rfl, rfl, rfl⟩

/-- A pop that goes on at `a` (10_state.md R20). -/
theorem dropTop_goto_popLeaves (s : State) (a : Nat) : PopLeaves a s (s.dropTop.goto a) :=
  ⟨rfl, rfl, fun _ => rfl, rfl, fun _ => rfl, ⟨rfl, rfl, rfl⟩, fun _ => rfl, rfl, rfl⟩

theorem pushWord_goto_entry_sp (s : State) (v : Word) (a : Nat) :
    ((s.pushWord v).goto a).entry s.sp = v := by simp

/-- All that a push which goes on at `a` leaves besides the pushed value (10_state.md R20). -/
theorem pushWord_goto_frame (s : State) (v : Word) (a : Nat) :
    let t := (s.pushWord v).goto a
    SameEntriesBut s.sp s t ∧ t.sp = s.sp + 1 ∧ t.ip = a ∧ t.out = s.out ∧
      SameRegs s t ∧ SameControl s t ∧ SameProgram s t := by
  have hentries : SameEntriesBut s.sp s ((s.pushWord v).goto a) := fun i hi => by simp [hi]
  exact ⟨hentries, rfl, rfl, rfl, fun _ => rfl, ⟨rfl, rfl, rfl⟩, fun _ => rfl, rfl, rfl⟩

/-- The immediate is pushed bit for bit (40_stack_ops.md R66). -/
theorem immediate_toInt {v : Int} (h : InSigned 32 v) : (immediate v).toInt = v :=
  BitVec.toInt_ofInt_eq_self (by decide) h.1 h.2

/-! ### The statements -/

/-- Settles O14: a push onto a stack with room writes `S[sp]` alone; the four operand bytes are those of the 32-bit pattern. -/
theorem pushPushesTheImmediate : Obligations.PushPushesTheImmediate := by
  refine ⟨fun v => ?encoding, fetchBounded .push, fun s v hv hroom => ?room, fun s v hfull => ?full⟩
  case encoding => exact congrArg (0x01 :: ·) (leBytes_eq_map_byteAt 4 v)
  case room =>
    refine ⟨_, exec_push_room v hroom.ne, ?_, pushWord_goto_frame s (immediate v) (s.nextIp .push)⟩
    rw [pushWord_goto_entry_sp, immediate_toInt hv]
  case full => exact raises_of_exec (exec_push_full v hfull)

/-- Settles O15: a pop clears no entry. -/
theorem popDiscardsTheTop : Obligations.PopDiscardsTheTop :=
  ⟨rfl, fetchEndsAtProgCap,
   fun s hlive => ⟨_, exec_pop_live hlive.ne', dropTop_goto_popLeaves s (s.ip + 1)⟩,
   fun _ hempty => raises_of_exec (exec_pop_empty hempty)⟩

/-- Settles O13. -/
theorem nopAdvances : Obligations.NopAdvances :=
  ⟨rfl, fetchEndsAtProgCap, fun s => ⟨_, exec_nop, rfl, goto_frame s (s.ip + 1)⟩⟩

end Sys2Proof.Machine
end

section
/-! PROOF. The register operations LOAD (O16) and STORE (O17). LOAD leaves what a push leaves, STORE what a register write with
a pop leaves; the paths of each, and which condition comes first, are the `exec_load_` and `exec_store_` lemmas. -/

namespace Sys2Proof.Machine

open Sys2Proof.Claims

/-! ### What a register write with a pop leaves -/

theorem setReg_dropTop_goto_reg (s : State) (r : Nat) (v : Word) (a : Nat) :
    ((s.setReg r v).dropTop.goto a).reg r = v := by simp

/-- All that a pop into register `r` which goes on at `a` leaves besides the value of `r` (10_state.md R20, R22). -/
theorem setReg_dropTop_goto_frame (s : State) (r : Nat) (v : Word) (a : Nat) :
    let t := (s.setReg r v).dropTop.goto a
    SameRegsBut r s t ∧ t.sp = s.sp - 1 ∧ t.ip = a ∧ SameEntries s t ∧ t.out = s.out ∧
      SameControl s t ∧ SameProgram s t := by
  have hregs : SameRegsBut r s ((s.setReg r v).dropTop.goto a) := fun i hi => by simp [hi]
  exact ⟨hregs, rfl, rfl, fun _ => rfl, rfl, ⟨rfl, rfl, rfl⟩, fun _ => rfl, rfl, rfl⟩

/-! ### The statements -/

/-- Settles O16: LOAD is a push of the register's value, once its index is found valid. -/
theorem loadPushesTheRegister : Obligations.LoadPushesTheRegister := by
  refine ⟨fun _ => rfl, fetchBounded .load, fun s r hr hroom => ?room, fun s r hr => ?invalid,
    fun s r hr hfull => ?full⟩
  case room =>
    exact ⟨_, exec_load_room hr hroom.ne, pushWord_goto_entry_sp s (s.reg r.toNat) (s.nextIp .load),
      pushWord_goto_frame s (s.reg r.toNat) (s.nextIp .load)⟩
  case invalid => exact raises_of_exec (exec_load_invalid hr)
  case full => exact raises_of_exec (exec_load_full hr hfull)

/-- Settles O17: the index is checked before the stack, and the popped entry is not cleared. -/
theorem storePopsIntoTheRegister : Obligations.StorePopsIntoTheRegister := by
  refine ⟨fun _ => rfl, fetchBounded .store, fun s r hr hlive => ?live, fun s r hr => ?invalid,
    fun s r hr hempty => ?empty⟩
  case live =>
    exact ⟨_, exec_store_live hr hlive.ne', setReg_dropTop_goto_reg s r.toNat s.top (s.nextIp .store),
      setReg_dropTop_goto_frame s r.toNat s.top (s.nextIp .store)⟩
  case invalid => exact raises_of_exec (exec_store_invalid hr)
  case empty => exact raises_of_exec (exec_store_empty hr hempty)

end Sys2Proof.Machine
end

section
/-! PROOF. Control transfer: JMP (O19), JZ (O20), JNZ (O21) and the target check they share (O18). JZ and JNZ are one
`popBranch` with opposite tests, so each path is shown once, for any instruction that is a `popBranch`. -/

namespace Sys2Proof.Machine

open Sys2Proof.Claims

/-! ### The tests of JZ and JNZ -/

variable {s : State}

theorem isZero_top_iff : isZero s.top = true ↔ (s.entry (s.sp - 1)).toInt = 0 := isZero_iff s.top

theorem isZero_top_eq_false_iff : isZero s.top = false ↔ (s.entry (s.sp - 1)).toInt ≠ 0 := by
  rw [← Bool.not_eq_true, isZero_top_iff, ne_eq]

theorem not_isZero_top_iff : (!isZero s.top) = true ↔ (s.entry (s.sp - 1)).toInt ≠ 0 := by
  rw [Bool.not_eq_true', isZero_top_eq_false_iff]

theorem not_isZero_top_eq_false_iff : (!isZero s.top) = false ↔ (s.entry (s.sp - 1)).toInt = 0 := by
  rw [Bool.not_eq_false', isZero_top_iff]

/-! ### The paths of a branch that pops its condition -/

section branch

variable {i : Instr} {f : Word → Bool} {a : Int} {n : Nat} (hexec : exec i s = popBranch f a n s)

include hexec

theorem exec_branch_taken (hlive : 0 < s.sp) (hf : f s.top = true) (ha : ValidTarget a s) :
    ∃ t, exec i s = .next t ∧ PopLeaves a.toNat s t :=
  ⟨_, hexec.trans (popBranch_taken hlive.ne' hf ha), dropTop_goto_popLeaves s a.toNat⟩

/-- The target plays no part (42_control_transfer.md R72, R73). -/
theorem exec_branch_notTaken (hlive : 0 < s.sp) (hf : f s.top = false) :
    ∃ t, exec i s = .next t ∧ PopLeaves n s t :=
  ⟨_, hexec.trans (popBranch_notTaken hlive.ne' hf), dropTop_goto_popLeaves s n⟩

/-- The pop is taken back (60_exceptions.md R86). -/
theorem raises_branch_invalid (hlive : 0 < s.sp) (hf : f s.top = true) (ha : ¬ ValidTarget a s) :
    Raises i .invalidJumpTarget s :=
  raises_of_exec (hexec.trans (popBranch_invalid hlive.ne' hf ha))

theorem raises_branch_empty (hempty : s.sp = 0) : Raises i .stackUnderflow s :=
  raises_of_exec (hexec.trans (popBranch_empty hempty))

end branch

/-! ### The statements -/

/-- Settles O19: a jump is a `goto` to the target once that is found valid. -/
theorem jmpGoesToTheTarget : Obligations.JmpGoesToTheTarget := by
  refine ⟨fun a => ?encoding, fetchBounded .jmp, fun s a ha => ?valid, fun s a ha => ?invalid⟩
  case encoding => exact congrArg (0x05 :: ·) (leBytes_eq_map_byteAt 2 a)
  case valid => exact ⟨_, exec_jmp_valid ha, Int.toNat_of_nonneg ha.1, goto_frame s a.toNat⟩
  case invalid => exact raises_of_exec (exec_jmp_invalid ha)

/-- Settles O20: JZ branches where the popped value is zero. -/
theorem jzPopsAndJumpsOnZero : Obligations.JzPopsAndJumpsOnZero := by
  refine ⟨fun a => ?encoding, fetchBounded .jz, fun s a hlive hz ha => ?taken,
    fun s a hlive hz => ?notTaken, fun s a hlive hz ha => ?invalid, fun s a hempty => ?empty⟩
  case encoding => exact congrArg (0x06 :: ·) (leBytes_eq_map_byteAt 2 a)
  case taken => exact exec_branch_taken (exec_jz_eq a) hlive (isZero_top_iff.mpr hz) ha
  case notTaken => exact exec_branch_notTaken (exec_jz_eq a) hlive (isZero_top_eq_false_iff.mpr hz)
  case invalid => exact raises_branch_invalid (exec_jz_eq a) hlive (isZero_top_iff.mpr hz) ha
  case empty => exact raises_branch_empty (exec_jz_eq a) hempty

/-- JZ and JNZ on one stack and one valid target: one goes to it, the other goes on (42_control_transfer.md R73). -/
theorem exactly_one_of_jz_jnz_jumps {a : Int} (hlive : 0 < s.sp) (ha : ValidTarget a s) :
    ∃ t u, exec (.jz a) s = .next t ∧ exec (.jnz a) s = .next u ∧
      ((t.ip = a.toNat ∧ u.ip = s.ip + 3) ∨ (t.ip = s.ip + 3 ∧ u.ip = a.toNat)) := by
  by_cases hz : (s.entry (s.sp - 1)).toInt = 0
  · obtain ⟨t, ht, -, htip, -⟩ := exec_branch_taken (exec_jz_eq a) hlive (isZero_top_iff.mpr hz) ha
    obtain ⟨u, hu, -, huip, -⟩ :=
      exec_branch_notTaken (exec_jnz_eq a) hlive (not_isZero_top_eq_false_iff.mpr hz)
    exact ⟨t, u, ht, hu, .inl ⟨htip, huip⟩⟩
  · obtain ⟨t, ht, -, htip, -⟩ :=
      exec_branch_notTaken (exec_jz_eq a) hlive (isZero_top_eq_false_iff.mpr hz)
    obtain ⟨u, hu, -, huip, -⟩ :=
      exec_branch_taken (exec_jnz_eq a) hlive (not_isZero_top_iff.mpr hz) ha
    exact ⟨t, u, ht, hu, .inr ⟨htip, huip⟩⟩

/-- Settles O21: JNZ branches where the popped value is not zero. -/
theorem jnzPopsAndJumpsOnNonzero : Obligations.JnzPopsAndJumpsOnNonzero := by
  refine ⟨fun a => ?encoding, fetchBounded .jnz, fun s a hlive hz ha => ?taken,
    fun s a hlive hz => ?notTaken, fun s a hlive hz ha => ?invalid, fun s a hempty => ?empty,
    fun s a hlive ha => exactly_one_of_jz_jnz_jumps hlive ha⟩
  case encoding => exact congrArg (0x07 :: ·) (leBytes_eq_map_byteAt 2 a)
  case taken => exact exec_branch_taken (exec_jnz_eq a) hlive (not_isZero_top_iff.mpr hz) ha
  case notTaken =>
    exact exec_branch_notTaken (exec_jnz_eq a) hlive (not_isZero_top_eq_false_iff.mpr hz)
  case invalid => exact raises_branch_invalid (exec_jnz_eq a) hlive (not_isZero_top_iff.mpr hz) ha
  case empty => exact raises_branch_empty (exec_jnz_eq a) hempty

/-- A pop that goes on at a valid target leaves `ip` there and the status as it was. -/
theorem jumped_of_popLeaves {i : Instr} {a : Int} (ha : ValidTarget a s)
    (h : ∃ t, exec i s = .next t ∧ PopLeaves a.toNat s t) :
    ∃ t, exec i s = .next t ∧ (t.ip : Int) = a ∧ t.status = s.status := by
  obtain ⟨t, ht, -, hip, -, -, -, ⟨hstatus, -⟩, -⟩ := h
  exact ⟨t, ht, hip ▸ Int.toNat_of_nonneg ha.1, hstatus⟩

/-- Settles O18: each of the three ways to jump goes through the one check of the target. -/
theorem jumpTargetsAreCheckedAgainstTheProgramLength :
    Obligations.JumpTargetsAreCheckedAgainstTheProgramLength := by
  obtain ⟨-, -, hjmp, hjmpInvalid⟩ := jmpGoesToTheTarget
  obtain ⟨-, -, hjz, -, hjzInvalid, -⟩ := jzPopsAndJumpsOnZero
  obtain ⟨-, -, hjnz, -, hjnzInvalid, -⟩ := jnzPopsAndJumpsOnNonzero
  rintro s a i (rfl | ⟨rfl, hlive, hz⟩ | ⟨rfl, hlive, hz⟩)
  case inl =>
    refine ⟨fun ha => ?_, hjmpInvalid s a⟩
    obtain ⟨t, ht, hip, -, -, -, -, ⟨hstatus, -⟩, -⟩ := hjmp s a ha
    exact ⟨t, ht, hip, hstatus⟩
  case inr.inl =>
    exact ⟨fun ha => jumped_of_popLeaves ha (hjz s a hlive hz ha), hjzInvalid s a hlive hz⟩
  case inr.inr =>
    exact ⟨fun ha => jumped_of_popLeaves ha (hjnz s a hlive hz ha), hjnzInvalid s a hlive hz⟩

end Sys2Proof.Machine
end

section
/-! PROOF. Arithmetic: ADD (O23), SUB (O24), MUL (O25), DIV (O26) and the division law (O27). Every result is an exact integer
narrowed by `wrapWord`; ADD, SUB and MUL are one `binaryOp` over different operators, and `divWord` is signed division. -/

namespace Sys2Proof.Machine

open Sys2Proof.Claims

/-! ### Narrowing and division -/

/-- `wrapWord` is `wrap32` (00_scope.md R13). -/
theorem wrapWord_isWrap32 (n : Int) : IsWrap32 n (wrapWord n).toInt := by
  refine ⟨BitVec.le_toInt _, BitVec.toInt_lt, ?_⟩
  rw [wrapWord, BitVec.toInt_ofInt]
  exact Int.dvd_self_sub_bmod

/-- `Int.tdiv` rounds toward zero, and its remainder is `Int.tmod` (43_arithmetic.md R76). -/
theorem tdiv_isTruncQuotient (a : Int) {b : Int} (hb : b ≠ 0) : IsTruncQuotient a b (a.tdiv b) := by
  refine ⟨a.tmod b, (Int.mul_tdiv_add_tmod a b).symm, ?smaller, Int.tmod_nonneg b, fun ha => ?sign⟩
  case smaller =>
    rw [Int.abs_eq_natAbs, Int.abs_eq_natAbs, Int.natAbs_tmod]
    exact Int.ofNat_lt.mpr (Nat.mod_lt _ (Int.natAbs_pos.mpr hb))
  case sign =>
    have hneg := Int.tmod_nonneg b (Int.neg_nonneg_of_nonpos ha)
    rwa [Int.neg_tmod, Int.neg_nonneg] at hneg

theorem divWord_eq_sdiv (a b : Word) : divWord a b = a.sdiv b := by
  apply BitVec.eq_of_toInt_eq
  rw [BitVec.toInt_sdiv, divWord, wrapWord, BitVec.toInt_ofInt]

/-- The quotient does not fit for `-2^31 / -1` alone. -/
theorem divWord_toInt_eq_tdiv {a b : Word} (h : ¬ (a.toInt = -(2 ^ 31) ∧ b.toInt = -1)) :
    (divWord a b).toInt = a.toInt.tdiv b.toInt := by
  rw [divWord_eq_sdiv]
  apply BitVec.toInt_sdiv_of_ne_or_ne
  rw [← not_and_or]
  rintro ⟨rfl, rfl⟩
  exact h (by decide)

theorem divWord_toInt_of_overflow {a b : Word} (ha : a.toInt = -(2 ^ 31)) (hb : b.toInt = -1) :
    (divWord a b).toInt = -(2 ^ 31) := by
  rw [divWord, ha, hb]
  decide

/-! ### What a binary operation leaves -/

variable {s : State}

/-- The result replaces both operands, and execution goes on one byte further (43_arithmetic.md R74). -/
theorem replaceTopTwo_goto_binaryLeaves (s : State) (v : Word) :
    BinaryLeaves v.toInt s ((s.replaceTopTwo v).goto (s.ip + 1)) := by
  have hentries : SameEntriesBut (s.sp - 2) s ((s.replaceTopTwo v).goto (s.ip + 1)) :=
    fun i hi => by simp [hi]
  exact ⟨by simp, hentries, rfl, rfl, rfl, fun _ => rfl, ⟨rfl, rfl, rfl⟩, fun _ => rfl, rfl, rfl⟩

/-- An instruction that is a `binaryOp` narrowing the exact result of `op`: both of its paths (43_arithmetic.md R74, R75). -/
theorem wrapping_binaryOp {i : Instr} {f : Word → Word → Word} (op : Int → Int → Int)
    (hexec : ∀ s, exec i s = binaryOp f (s.ip + 1) s)
    (hf : ∀ a b, f a b = wrapWord (op a.toInt b.toInt)) :
    (∀ s : State, 2 ≤ s.sp → ∃ t v, exec i s = .next t ∧ BinaryLeaves v s t ∧
      IsWrap32 (op (s.entry (s.sp - 2)).toInt (s.entry (s.sp - 1)).toInt) v) ∧
    (∀ s : State, s.sp < 2 → Raises i .stackUnderflow s) := by
  refine ⟨fun s hlive => ?live, fun s hfew => ?few⟩
  case live =>
    refine ⟨_, _, (hexec s).trans (binaryOp_live hlive), replaceTopTwo_goto_binaryLeaves s _, ?_⟩
    rw [hf]
    exact wrapWord_isWrap32 _
  case few => exact raises_of_exec ((hexec s).trans (binaryOp_few hfew))

/-! ### The paths of DIV -/

theorem top_eq_zero_iff : s.top = 0 ↔ (s.entry (s.sp - 1)).toInt = 0 := by
  rw [← isZero_top_iff, isZero, beq_iff_eq]

theorem exec_div_binaryLeaves (hlive : 2 ≤ s.sp) (hb : (s.entry (s.sp - 1)).toInt ≠ 0) :
    ∃ t, exec .div s = .next t ∧
      BinaryLeaves (divWord (s.entry (s.sp - 2)) (s.entry (s.sp - 1))).toInt s t :=
  ⟨_, exec_div_live hlive (mt top_eq_zero_iff.mp hb), replaceTopTwo_goto_binaryLeaves s _⟩

theorem raises_div_zero (hlive : 2 ≤ s.sp) (hb : (s.entry (s.sp - 1)).toInt = 0) :
    Raises .div .divisionByZero s :=
  raises_of_exec (exec_div_zero hlive (top_eq_zero_iff.mpr hb))

/-! ### The statements -/

/-- Settles O23. -/
theorem addReplacesTheTopTwoByTheirSum : Obligations.AddReplacesTheTopTwoByTheirSum :=
  ⟨rfl, fetchEndsAtProgCap, wrapping_binaryOp (· + ·) (fun _ => exec_add_eq) (fun _ _ => rfl)⟩

/-- Settles O24: the operator's left operand is the entry pushed earlier. -/
theorem subReplacesTheTopTwoByTheirDifference : Obligations.SubReplacesTheTopTwoByTheirDifference :=
  ⟨rfl, fetchEndsAtProgCap, wrapping_binaryOp (· - ·) (fun _ => exec_sub_eq) (fun _ _ => rfl)⟩

/-- Settles O25. -/
theorem mulReplacesTheTopTwoByTheirProduct : Obligations.MulReplacesTheTopTwoByTheirProduct :=
  ⟨rfl, fetchEndsAtProgCap, wrapping_binaryOp (· * ·) (fun _ => exec_mul_eq) (fun _ _ => rfl)⟩

/-- Settles O26: the exact quotient is `Int.tdiv`, and the stack is checked before the divisor. -/
theorem divReplacesTheTopTwoByTheirQuotient : Obligations.DivReplacesTheTopTwoByTheirQuotient := by
  refine ⟨rfl, fetchEndsAtProgCap, fun s hlive hb => ?quotient, fun s hlive hb => ?zero,
    fun s hfew => ?few⟩
  case quotient =>
    obtain ⟨t, ht, hleaves⟩ := exec_div_binaryLeaves hlive hb
    exact ⟨t, _, _, ht, hleaves, tdiv_isTruncQuotient _ hb, wrapWord_isWrap32 _⟩
  case zero => exact raises_div_zero hlive hb
  case few => exact raises_of_exec (exec_div_few hfew)

/-- Settles O27: only `-2^31 / -1` leaves the range of a word. -/
theorem divisionLaw : Obligations.DivisionLaw := by
  refine fun s hlive => ⟨fun hb => ?_, fun hb => raises_div_zero hlive hb⟩
  obtain ⟨t, ht, hleaves⟩ := exec_div_binaryLeaves hlive hb
  have hresult := hleaves.1
  refine ⟨t, ht, hresult ▸ hleaves, ?_⟩
  rw [hresult]
  split
  · next hoverflow => exact divWord_toInt_of_overflow hoverflow.1 hoverflow.2
  · next hfits =>
    rw [divWord_toInt_eq_tdiv hfits]
    exact tdiv_isTruncQuotient _ hb

end Sys2Proof.Machine
end

section
/-! PROOF. Output and halt: PRINT (O28) and STOP (O29). -/

namespace Sys2Proof.Machine

open Sys2Proof.Claims

/-- All that a pop which emits the popped value and goes on at `a` leaves (44_output_and_halt.md R82). -/
theorem emit_top_dropTop_goto_frame (s : State) (a : Nat) :
    let t := ((s.emit s.top).dropTop).goto a
    t.out = s.out ++ [s.entry (s.sp - 1)] ∧ t.sp = s.sp - 1 ∧ t.ip = a ∧ SameEntries s t ∧
      SameRegs s t ∧ SameControl s t ∧ SameProgram s t :=
  ⟨rfl, rfl, rfl, fun _ => rfl, fun _ => rfl, ⟨rfl, rfl, rfl⟩, fun _ => rfl, rfl, rfl⟩

/-- Settles O28: the popped value goes to the end of the output, and an empty stack is found before anything is emitted. -/
theorem printPopsAndEmits : Obligations.PrintPopsAndEmits :=
  ⟨rfl, fetchEndsAtProgCap,
   fun s hlive => ⟨_, exec_print_live hlive.ne', emit_top_dropTop_goto_frame s (s.ip + 1)⟩,
   fun _ hempty => raises_of_exec (exec_print_empty hempty)⟩

/-- All that halting at `a` leaves: the status alone changes beside `ip` (44_output_and_halt.md R83). -/
theorem goto_halt_frame (s : State) (a : Nat) :
    let t := (s.goto a).halt
    t.status = .halted ∧ t.ip = a ∧ t.sp = s.sp ∧ SameEntries s t ∧ SameRegs s t ∧ t.out = s.out ∧
      t.faultKind = s.faultKind ∧ t.faultPc = s.faultPc ∧ SameProgram s t :=
  ⟨rfl, rfl, rfl, fun _ => rfl, fun _ => rfl, rfl, rfl, rfl, fun _ => rfl, rfl, rfl⟩

/-- Settles O29. -/
theorem stopHalts : Obligations.StopHalts :=
  ⟨rfl, fetchEndsAtProgCap, fun s => ⟨_, exec_stop, goto_halt_frame s (s.ip + 1)⟩⟩

end Sys2Proof.Machine
end

section
/-! PROOF. Faults: a faulting step is precise (O30), an instruction raises its own faults alone (O31), the priority of fault
conditions (O32), and the run result (O34). -/

namespace Sys2Proof.Machine

open Sys2Proof.Claims

variable {s t : State}

/-! ### Steps that end Faulted -/

/-- Only a fault of its own takes an instruction from Running to Faulted, and raising it is then all the instruction does. -/
theorem Effect.eq_raise_of_faulted {i : Instr} (h : Effect i s t) (hs : s.status = .running)
    (ht : t.status = .faulted) : ∃ k, ownFault? i s = some k ∧ t = s.raise k := by
  have hkept : t.status ≠ s.status := by simp [hs, ht]
  cases h with
  | raises k hk => exact ⟨k, hk, rfl⟩
  | stop => cases ht
  | _ => exact absurd rfl hkept

theorem step_eq_raise_of_faulted (h : step s = .next t) (ht : t.status = .faulted) :
    ∃ k, t = s.raise k := by
  obtain ⟨hs, ⟨i, -, he⟩ | ⟨k, -, hk⟩⟩ := step_cases h
  · exact (he.eq_raise_of_faulted hs ht).imp fun _ hk => hk.2
  · exact ⟨k, hk⟩

/-- Settles O30: the state after the step is the one before it with a fault raised, and that state is not Running. -/
theorem faultsArePrecise : Obligations.FaultsArePrecise := by
  intro s t _ h ht
  obtain ⟨k, rfl⟩ := step_eq_raise_of_faulted h ht
  exact ⟨⟨k, s.raise_faultLeaves k⟩, noStepAfterTheRunHasEnded _ (by simp)⟩

/-! ### Each instruction's own faults -/

/-- The fault that an instruction's checks find is in its row of the table (60_exceptions.md R85). -/
theorem ownFault?_mem_ownFaults {i : Instr} {k : FaultKind} (h : ownFault? i s = some k) :
    k ∈ ownFaults i := by
  cases i with
  | nop | stop => cases h
  | push | pop | add | sub | mul | print =>
    obtain ⟨-, ⟨⟩⟩ := Option.ite_none_right_eq_some.mp h
    exact List.mem_singleton_self _
  | jmp =>
    obtain ⟨-, ⟨⟩⟩ := Option.ite_none_left_eq_some.mp h
    exact List.mem_singleton_self _
  | load | store =>
    simp only [ownFault?] at h
    split at h
    · obtain ⟨-, ⟨⟩⟩ := Option.ite_none_right_eq_some.mp h
      simp [ownFaults]
    · cases h
      simp [ownFaults]
  | jz | jnz | div =>
    simp only [ownFault?] at h
    split at h
    · cases h
      simp [ownFaults]
    · obtain ⟨-, ⟨⟩⟩ := Option.ite_none_right_eq_some.mp h
      simp [ownFaults]

/-- Settles O31. -/
theorem instructionsRaiseOnlyTheirOwnFaults : Obligations.InstructionsRaiseOnlyTheirOwnFaults := by
  intro i s t hs h ht
  obtain ⟨k, hk, rfl⟩ := (exec_cases h).eq_raise_of_faulted hs ht
  exact ⟨k, ownFault?_mem_ownFaults hk, s.raise_faultKind k⟩

/-! ### Priority -/

/-- Settles O32, one case for each place of the list of 60_exceptions.md R89, the stack conditions by what the stack lacks. -/
theorem faultPriority : Obligations.FaultPriority := by
  refine ⟨fetchEndsAtProgCap, fun s b hs hb hop => ?unknownOpcode,
    fun s op ⟨hs, hm, hb⟩ hend => ?operandPastEnd, fun s r hr => ?invalidRegister,
    fun s r v hfull => ?full, fun s r hempty hr => ?storeEmpty, fun s i a hempty hi => ?popEmpty,
    fun s i hfew hi => ?fewerThanTwo, fun s a ha => ?invalidTarget, fun s => raises_div_zero⟩
  case unknownOpcode => exact exists_step_faultLeaves hs (fetch_unknown hb hop)
  case operandPastEnd =>
    exact exists_step_faultLeaves hs (fetch_truncated hb (opcode?_byteOf hm op) hend)
  case invalidRegister =>
    exact ⟨raises_of_exec (exec_load_invalid hr), raises_of_exec (exec_store_invalid hr)⟩
  case full =>
    exact ⟨raises_of_exec (exec_push_full v hfull), fun hr => raises_of_exec (exec_load_full hr hfull)⟩
  case storeEmpty => exact raises_of_exec (exec_store_empty hr hempty)
  case popEmpty =>
    obtain rfl | rfl | rfl | rfl := hi
    · exact raises_of_exec (exec_pop_empty hempty)
    · exact raises_of_exec (exec_print_empty hempty)
    · exact raises_branch_empty (exec_jz_eq a) hempty
    · exact raises_branch_empty (exec_jnz_eq a) hempty
  case fewerThanTwo =>
    obtain rfl | rfl | rfl | rfl := hi
    · exact raises_of_exec (exec_add_eq.trans (binaryOp_few hfew))
    · exact raises_of_exec (exec_sub_eq.trans (binaryOp_few hfew))
    · exact raises_of_exec (exec_mul_eq.trans (binaryOp_few hfew))
    · exact raises_of_exec (exec_div_few hfew)
  case invalidTarget =>
    exact ⟨raises_of_exec (exec_jmp_invalid ha),
      fun hlive hz => raises_branch_invalid (exec_jz_eq a) hlive (isZero_top_iff.mpr hz) ha,
      fun hlive hz => raises_branch_invalid (exec_jnz_eq a) hlive (not_isZero_top_iff.mpr hz) ha⟩

/-! ### The run result -/

/-- Settles O34. -/
theorem runResultFollowsStatusAndKind : Obligations.RunResultFollowsStatusAndKind := by
  refine fun s => ⟨fun hhalted => ?_, fun k hfaulted hkind => ?_, fun hrunning => ?_⟩
  · simp only [State.runResult, hhalted]
  · simp only [State.runResult, hfaulted, hkind, Option.map_some]
  · simp only [State.runResult, hrunning]

end Sys2Proof.Machine
end

section
/-! PROOF. Reset and hazards: the loop of one JMP (O22), the output port of a step (O43), and the host's writes outside reset
(O50). -/

namespace Sys2Proof.Machine

variable {s t : State}

/-! ### A step that leaves the state as it is -/

theorem State.goto_self (s : State) : s.goto s.ip = s := rfl

/-- A state that steps to itself is where every run from it ends. -/
theorem run_of_step_self (h : step s = .next s) (n : Nat) : Sys2Proof.core.run n s = .next s := by
  induction n with
  | zero => rfl
  | succ n ih => rw [run_succ_of_step h, ih]

theorem exec_jmp_self (h : s.ip < s.progLen) : exec (.jmp (s.ip : Int)) s = .next s := by
  have hvalid : 0 ≤ (s.ip : Int) ∧ (s.ip : Int) < s.progLen := ⟨Int.natCast_nonneg _, Int.ofNat_lt.mpr h⟩
  rw [exec_jmp_valid hvalid, Int.toNat_natCast, State.goto_self]

/-- Settles O22: the jump is taken, its target is where `ip` is already, and so the state steps to itself. -/
theorem jumpToItselfNeverEnds : Obligations.JumpToItselfNeverEnds := fun s rest hs hip hd =>
  run_of_step_self ((stepRunsTheDecodedInstruction s _ rest hs hd).trans (exec_jmp_self hip))

/-! ### The output port -/

theorem outData?_of_out_eq (h : t.out = s.out) : outData? s t = none := by
  rw [outData?, h, List.drop_length, List.head?_nil]

theorem outData?_of_out_append {w : Word} (h : t.out = s.out ++ [w]) : outData? s t = some w := by
  rw [outData?, h, List.drop_left, List.head?_singleton]

/-- Settles O43: a step leaves the output alone and shows nothing, or appends one value and shows that. -/
theorem outputPortShowsEachEmittedValue : Obligations.OutputPortShowsEachEmittedValue := by
  refine fun s t h v => ⟨fun hshown => ?_, outData?_of_out_append⟩
  obtain hsame | ⟨w, hout⟩ := step_out_cases h
  · rw [outData?_of_out_eq hsame] at hshown
    cases hshown
  · rw [outData?_of_out_append hout] at hshown
    exact Option.some.inj hshown ▸ hout

/-! ### Host events while `rst` is 0 -/

section released

variable {b : Block} (hb : b.rst = false)
include hb

theorem on_loadByte_released (a : Nat) (d : Byte) : b.on (.loadByte a d) = .next b := by
  simp [Block.on, hb]

theorem on_setProgLen_released (n : Nat) : b.on (.setProgLen n) = .next b := by
  simp [Block.on, hb]

theorem on_assertReset_released :
    b.on .assertReset = .next { rst := true, core := State.initial b.core.cfg } := by
  simp [Block.on, hb]

end released

/-- Settles O50, by the three events' answers outside reset. -/
theorem hostWritesCountOnlyUnderReset : Obligations.HostWritesCountOnlyUnderReset :=
  fun _ hb => ⟨on_loadByte_released hb, on_setProgLen_released hb, on_assertReset_released hb⟩

end Sys2Proof.Machine
end
